-- ==== Sys2Proof/Word.lean ====
section
/-! DEFINITION. The word and the byte of the core (rules R4, R7). -/

namespace Sys2Proof

/-- A 32-bit pattern: an instruction word, a register, a data-memory word or the program counter (R4, R7). -/
abbrev Word := BitVec 32

/-- One byte of the instruction store (R24). -/
abbrev Byte := BitVec 8

end Sys2Proof
end

