-- ==== Sys2Proof/Config.lean ====
section
/-! DEFINITION. What the environment fixes for a run: the admitted ranges of the capacities (R5), and the values that the
model names for a reset machine where the spec leaves them to the environment.
The core is deterministic (R77), so there is no free value here. -/

namespace Sys2Proof

/-- The largest `IMEM_WORDS` the spec admits (R5, decision D4). -/
def Config.imemWordsMax : Nat := 2 ^ 30

/-- The largest `MEM_WORDS` the spec admits (R5, decision D5). -/
def Config.memWordsMax : Nat := 2 ^ 31 - 2 ^ 15

/-- The reference value of `MEM_WORDS` (R5, R22), taken for a reset machine: DESIGN CHOICE, unsafe, log entry 5. -/
def Config.memWordsReference : Nat := 32

/-- What each register holds in `State.reset`: DESIGN CHOICE, unsafe, log entry 4 (the spec: `INIT_REGS`, supplied by the
environment, R17). -/
def Config.resetRegister : Word := 0#32

/-- What a cell that memory does not list reads as: DESIGN CHOICE, unsafe at reset, log entry 6 (the spec: `IMEM`, `INIT_MEM`). -/
def Config.unlistedCell (w : Nat) : BitVec w := 0#w

end Sys2Proof
end

