-- ==== Sys2Proof/Syntax.lean ====
section
/-! DEFINITION. The instruction set: the four shapes, the fields the decoder cuts out, and the eleven instructions of
spec/opcode_table.json. -/

namespace Sys2Proof

/-- The structural layout of a word's fields (R9, R50, R73). -/
inductive Shape where
  | r
  | i
  | j
  | halt
deriving DecidableEq, Repr

/-- The Decoded Instruction: 6 unsigned fields for R, 4 for I, 2 for J (R27, R74). The decoder is not run for HALT. -/
inductive Decoded where
  | r (opcode : BitVec 6) (rs rt rd shamt : BitVec 5) (funct : BitVec 6)
  | i (opcode : BitVec 6) (rs rt : BitVec 5) (imm : BitVec 16)
  | j (opcode : BitVec 6) (address : BitVec 26)
deriving DecidableEq, Repr

/-- The eleven instructions, one constructor per row of the opcode table, operands in the table's order.
A register operand is an index read as an unsigned number (R21, R56); `WellFormed` says that it lies in 0..31.
`shamt` and HALT's bits [25:0] are kept so that no bit of a word is lost (R65); no meaning looks at them (R53, R56). -/
inductive Instr where
  | addu (rd rs rt : Nat) (shamt : BitVec 5)
  | subu (rd rs rt : Nat) (shamt : BitVec 5)
  | and (rd rs rt : Nat) (shamt : BitVec 5)
  | or (rd rs rt : Nat) (shamt : BitVec 5)
  | nor (rd rs rt : Nat) (shamt : BitVec 5)
  | addiu (rt rs : Nat) (imm : BitVec 16)
  | beq (rs rt : Nat) (imm : BitVec 16)
  | lw (rt rs : Nat) (imm : BitVec 16)
  | sw (rt rs : Nat) (imm : BitVec 16)
  | j (address : BitVec 26)
  | halt (ignored : BitVec 26)
deriving DecidableEq, Repr

/-- The eleven names, without operands: the rows of the match and mask table (R59). -/
inductive Op where
  | addu
  | subu
  | and
  | or
  | nor
  | addiu
  | beq
  | lw
  | sw
  | j
  | halt
deriving DecidableEq, Repr

/-- The row of the opcode table that an instruction belongs to. -/
def Instr.op : Instr → Op
  | .addu _ _ _ _ => .addu
  | .subu _ _ _ _ => .subu
  | .and _ _ _ _ => .and
  | .or _ _ _ _ => .or
  | .nor _ _ _ _ => .nor
  | .addiu _ _ _ => .addiu
  | .beq _ _ _ => .beq
  | .lw _ _ _ => .lw
  | .sw _ _ _ => .sw
  | .j _ => .j
  | .halt _ => .halt

/-- The shape of an instruction's word (R57). -/
def Instr.shape : Instr → Shape
  | .addu _ _ _ _ => .r
  | .subu _ _ _ _ => .r
  | .and _ _ _ _ => .r
  | .or _ _ _ _ => .r
  | .nor _ _ _ _ => .r
  | .addiu _ _ _ => .i
  | .beq _ _ _ => .i
  | .lw _ _ _ => .i
  | .sw _ _ _ => .i
  | .j _ => .j
  | .halt _ => .halt

end Sys2Proof
end

