-- ==== Sys2Proof/WellFormed.lean ====
section
/-! DEFINITION. Well-formed instructions: every register index referenced lies in 0..31 (R21). The other fields hold exactly
the bits of their width by their types. -/

namespace Sys2Proof

/-- The register indices an instruction references: rs, rt and, for R-shape, rd; J-shape and HALT reference none (R21, R142). -/
def Instr.regIndices : Instr → List Nat
  | .addu rd rs rt _ => [rs, rt, rd]
  | .subu rd rs rt _ => [rs, rt, rd]
  | .and rd rs rt _ => [rs, rt, rd]
  | .or rd rs rt _ => [rs, rt, rd]
  | .nor rd rs rt _ => [rs, rt, rd]
  | .addiu rt rs _ => [rs, rt]
  | .beq rs rt _ => [rs, rt]
  | .lw rt rs _ => [rs, rt]
  | .sw rt rs _ => [rs, rt]
  | .j _ => []
  | .halt _ => []

/-- The check of R21 on every index an instruction references. -/
def Instr.wellFormed (i : Instr) : Bool :=
  i.regIndices.all (fun r => decide (r < 32))

/-- An instruction all of whose register indices lie in 0..31. -/
abbrev Instr.WellFormed (i : Instr) : Prop := i.wellFormed = true

/-- The register an instruction writes when it completes: `rd` for R-shape, `rt` for `addiu` and `lw`, none for the others (R20). -/
def Instr.writtenReg : Instr → Option Nat
  | .addu rd _ _ _ => some rd
  | .subu rd _ _ _ => some rd
  | .and rd _ _ _ => some rd
  | .or rd _ _ _ => some rd
  | .nor rd _ _ _ => some rd
  | .addiu rt _ _ => some rt
  | .beq _ _ _ => none
  | .lw rt _ _ => some rt
  | .sw _ _ _ => none
  | .j _ => none
  | .halt _ => none

end Sys2Proof
end

