-- ==== Sys2Proof/Decode.lean ====
section
/-! DEFINITION. From bits to instructions and back: big-endian assembly (R32), type classifier (R73), field decoder (R74),
selection on funct or opcode (R76), the match and mask table (R59), and the encoder (R51, R52, R53).
Every range is a constant, so no invalid range can be asked for (R75, U7). -/

namespace Sys2Proof

/-! ### Fields (R6, R74): logical shifts only, never sign-extended -/

/-- `w[31:26]`. -/
def opcodeField (w : Word) : BitVec 6 := w.extractLsb' 26 6

/-- `w[25:21]`. -/
def rsField (w : Word) : BitVec 5 := w.extractLsb' 21 5

/-- `w[20:16]`. -/
def rtField (w : Word) : BitVec 5 := w.extractLsb' 16 5

/-- `w[15:11]`. -/
def rdField (w : Word) : BitVec 5 := w.extractLsb' 11 5

/-- `w[10:6]`. -/
def shamtField (w : Word) : BitVec 5 := w.extractLsb' 6 5

/-- `w[5:0]`. -/
def functField (w : Word) : BitVec 6 := w.extractLsb' 0 6

/-- `w[15:0]`, extracted unsigned (R54). -/
def immField (w : Word) : BitVec 16 := w.extractLsb' 0 16

/-- `w[25:0]`, extracted unsigned (R55). -/
def addressField (w : Word) : BitVec 26 := w.extractLsb' 0 26

/-- `w[31:24]`, the first (most significant) byte, the classifier's input (R73). -/
def firstByte (w : Word) : Byte := w.extractLsb' 24 8

/-! ### The front end -/

/-- The type classifier, total over all 256 bytes (R73). -/
def classify (b : Byte) : Shape :=
  let opcode := b >>> 2
  if opcode = 0x00#8 then .r
  else if opcode = 0x02#8 then .j
  else if opcode = 0x3F#8 then .halt
  else .i

/-- The field decoder (R74): no error path; not run for the HALT shape. -/
def decodeFields (sh : Shape) (w : Word) : Option Decoded :=
  match sh with
  | .r => some (.r (opcodeField w) (rsField w) (rtField w) (rdField w) (shamtField w) (functField w))
  | .i => some (.i (opcodeField w) (rsField w) (rtField w) (immField w))
  | .j => some (.j (opcodeField w) (addressField w))
  | .halt => none

/-- Why a word is no instruction: the cause of `raise UNKOP(cause)` (R76, R144). -/
inductive UnkopCause where
  /-- An R-shape word with an unsupported funct (R60). -/
  | funct (f : BitVec 6)
  /-- A word with an unsupported opcode (R61). -/
  | opcode (o : BitVec 6)
deriving DecidableEq, Repr

/-- The selection on funct or opcode (R57, R58, R76). The last case of J-shape is unreachable (R61, C5). -/
def select : Decoded → Except UnkopCause Instr
  | .r _ rs rt rd shamt funct =>
    if funct = 0x21#6 then .ok (.addu rd.toNat rs.toNat rt.toNat shamt)
    else if funct = 0x23#6 then .ok (.subu rd.toNat rs.toNat rt.toNat shamt)
    else if funct = 0x24#6 then .ok (.and rd.toNat rs.toNat rt.toNat shamt)
    else if funct = 0x25#6 then .ok (.or rd.toNat rs.toNat rt.toNat shamt)
    else if funct = 0x27#6 then .ok (.nor rd.toNat rs.toNat rt.toNat shamt)
    else .error (.funct funct)
  | .i opcode rs rt imm =>
    if opcode = 0x09#6 then .ok (.addiu rt.toNat rs.toNat imm)
    else if opcode = 0x04#6 then .ok (.beq rs.toNat rt.toNat imm)
    else if opcode = 0x23#6 then .ok (.lw rt.toNat rs.toNat imm)
    else if opcode = 0x2B#6 then .ok (.sw rt.toNat rs.toNat imm)
    else .error (.opcode opcode)
  | .j opcode address =>
    if opcode = 0x02#6 then .ok (.j address)
    else .error (.opcode opcode)

/-- The instruction a word stands for, or why it is none (R59, R70): classify, cut out the fields, select; HALT is settled by
the classifier alone (R111). -/
def decodeWord (w : Word) : Except UnkopCause Instr :=
  match decodeFields (classify (firstByte w)) w with
  | some d => select d
  | none => .ok (.halt (addressField w))

/-- The four bytes of a word, most significant first (R32). -/
def assemble (b0 b1 b2 b3 : Byte) : Word := b0 ++ b1 ++ b2 ++ b3

/-- Why a byte sequence begins with no instruction. -/
inductive Reject where
  /-- Four bytes are there and their word is none of the eleven (R60, R61). -/
  | unkop (c : UnkopCause)
  /-- Fewer than four bytes are left. -/
  | truncated
deriving DecidableEq, Repr

/-- The decoder on bytes: the first instruction and the bytes after it. -/
def decode : List Byte → Except Reject (Instr × List Byte)
  | b0 :: b1 :: b2 :: b3 :: rest =>
    match decodeWord (assemble b0 b1 b2 b3) with
    | .ok i => .ok (i, rest)
    | .error c => .error (.unkop c)
  | _ => .error .truncated

/-! ### The encoder -/

/-- The R-shape word: `opcode ++ rs ++ rt ++ rd ++ shamt ++ funct` (R51). -/
def packR (opcode : BitVec 6) (rs rt rd shamt : BitVec 5) (funct : BitVec 6) : Word :=
  opcode ++ rs ++ rt ++ rd ++ shamt ++ funct

/-- The I-shape word: `opcode ++ rs ++ rt ++ imm` (R52). -/
def packI (opcode : BitVec 6) (rs rt : BitVec 5) (imm : BitVec 16) : Word :=
  opcode ++ rs ++ rt ++ imm

/-- The J-shape word, and the HALT word: `opcode ++ address` (R53). -/
def packJ (opcode : BitVec 6) (address : BitVec 26) : Word :=
  opcode ++ address

/-- The word whose fields a Decoded Instruction holds (R51, R52, R53, R65). -/
def packFields : Decoded → Word
  | .r opcode rs rt rd shamt funct => packR opcode rs rt rd shamt funct
  | .i opcode rs rt imm => packI opcode rs rt imm
  | .j opcode address => packJ opcode address

/-- A register operand as its 5-bit field; exact for an index in 0..31 (R56). -/
def regField (r : Nat) : BitVec 5 := BitVec.ofNat 5 r

/-- The word of an instruction (R51, R52, R53, R57, R58). -/
def encode : Instr → Word
  | .addu rd rs rt shamt => packR 0x00#6 (regField rs) (regField rt) (regField rd) shamt 0x21#6
  | .subu rd rs rt shamt => packR 0x00#6 (regField rs) (regField rt) (regField rd) shamt 0x23#6
  | .and rd rs rt shamt => packR 0x00#6 (regField rs) (regField rt) (regField rd) shamt 0x24#6
  | .or rd rs rt shamt => packR 0x00#6 (regField rs) (regField rt) (regField rd) shamt 0x25#6
  | .nor rd rs rt shamt => packR 0x00#6 (regField rs) (regField rt) (regField rd) shamt 0x27#6
  | .addiu rt rs imm => packI 0x09#6 (regField rs) (regField rt) imm
  | .beq rs rt imm => packI 0x04#6 (regField rs) (regField rt) imm
  | .lw rt rs imm => packI 0x23#6 (regField rs) (regField rt) imm
  | .sw rt rs imm => packI 0x2B#6 (regField rs) (regField rt) imm
  | .j address => packJ 0x02#6 address
  | .halt ignored => packJ 0x3F#6 ignored

/-- The four bytes of a word in the instruction store, most significant first (R32). -/
def wordBytes (w : Word) : List Byte :=
  [w.extractLsb' 24 8, w.extractLsb' 16 8, w.extractLsb' 8 8, w.extractLsb' 0 8]

/-- The bytes of an instruction, as the store holds them. -/
def encodeBytes (i : Instr) : List Byte := wordBytes (encode i)

/-! ### The match and mask table (R59) -/

/-- The fixed bits of each instruction's word. -/
def Op.mask : Op → Word
  | .addu => 0xFC00003F#32
  | .subu => 0xFC00003F#32
  | .and => 0xFC00003F#32
  | .or => 0xFC00003F#32
  | .nor => 0xFC00003F#32
  | .addiu => 0xFC000000#32
  | .beq => 0xFC000000#32
  | .lw => 0xFC000000#32
  | .sw => 0xFC000000#32
  | .j => 0xFC000000#32
  | .halt => 0xFC000000#32

/-- The values of each instruction's fixed bits. -/
def Op.pattern : Op → Word
  | .addu => 0x00000021#32
  | .subu => 0x00000023#32
  | .and => 0x00000024#32
  | .or => 0x00000025#32
  | .nor => 0x00000027#32
  | .addiu => 0x24000000#32
  | .beq => 0x10000000#32
  | .lw => 0x8C000000#32
  | .sw => 0xAC000000#32
  | .j => 0x08000000#32
  | .halt => 0xFC000000#32

/-! ### The host's numbering of a table row's bits -/

/-- The word of a table row's bits: one 32-bit word, bit 0 its least significant bit, the bits above `nbits` zero. -/
def tableWord (nbits w : Nat) : Word := BitVec.ofNat 32 (w % 2 ^ nbits)

/-- What the decoder reads from the row's word laid out as the store holds it. -/
def decodeTableWord (nbits w : Nat) : Option Instr :=
  match decode (wordBytes (tableWord nbits w)) with
  | .ok (i, _) => some i
  | .error _ => none

/-! ### One word per constructor, written out from the patterns of R59 -/

/-- `000000 sssss ttttt ddddd hhhhh 100001` with rs = 1, rt = 2, rd = 3 (the source's S1). -/
theorem decodeWord_addu_word :
    decodeWord 0b000000_00001_00010_00011_00000_100001#32 = .ok (.addu 3 1 2 0#5) := by decide

/-- `000000 sssss ttttt ddddd hhhhh 100011` with rs = 9, rt = 10, rd = 4. -/
theorem decodeWord_subu_word :
    decodeWord 0b000000_01001_01010_00100_00000_100011#32 = .ok (.subu 4 9 10 0#5) := by decide

/-- `000000 sssss ttttt ddddd hhhhh 100100` with rs = 1, rt = 2, rd = 5. -/
theorem decodeWord_and_word :
    decodeWord 0b000000_00001_00010_00101_00000_100100#32 = .ok (.and 5 1 2 0#5) := by decide

/-- `000000 sssss ttttt ddddd hhhhh 100101` with rs = 1, rt = 2, rd = 6, shamt = 19. -/
theorem decodeWord_or_word :
    decodeWord 0b000000_00001_00010_00110_10011_100101#32 = .ok (.or 6 1 2 19#5) := by decide

/-- `000000 sssss ttttt ddddd hhhhh 100111` with rs = 31, rt = 16, rd = 31. -/
theorem decodeWord_nor_word :
    decodeWord 0b000000_11111_10000_11111_00000_100111#32 = .ok (.nor 31 31 16 0#5) := by decide

/-- `001001 sssss ttttt iiiiiiiiiiiiiiii` with rs = 1, rt = 2, imm = 0xFFFF. -/
theorem decodeWord_addiu_word :
    decodeWord 0b001001_00001_00010_1111111111111111#32 = .ok (.addiu 2 1 0xFFFF#16) := by decide

/-- `000100 sssss ttttt iiiiiiiiiiiiiiii` with rs = 1, rt = 2, imm = 3. -/
theorem decodeWord_beq_word :
    decodeWord 0b000100_00001_00010_0000000000000011#32 = .ok (.beq 1 2 3#16) := by decide

/-- `100011 sssss ttttt iiiiiiiiiiiiiiii` with rs = 1, rt = 2, imm = 4. -/
theorem decodeWord_lw_word :
    decodeWord 0b100011_00001_00010_0000000000000100#32 = .ok (.lw 2 1 4#16) := by decide

/-- `101011 sssss ttttt iiiiiiiiiiiiiiii` with rs = 0, rt = 4, imm = 2 (the source's S2). -/
theorem decodeWord_sw_word :
    decodeWord 0b101011_00000_00100_0000000000000010#32 = .ok (.sw 4 0 2#16) := by decide

/-- `000010 aaaaaaaaaaaaaaaaaaaaaaaaaa` with address = 0x2000003. -/
theorem decodeWord_j_word :
    decodeWord 0b000010_10000000000000000000000011#32 = .ok (.j 0x2000003#26) := by decide

/-- `111111 xxxxxxxxxxxxxxxxxxxxxxxxxx`, the canonical word (the source's S3). -/
theorem decodeWord_halt_word :
    decodeWord 0b111111_00000000000000000000000000#32 = .ok (.halt 0#26) := by decide

end Sys2Proof
end

