-- ==== Sys2Proof/Machine/State.lean ====
section
/-! DEFINITION. The state of the core (R10), the values that live for one step (Effect, R120; trap causes, R140), and the state
after reset (R161). -/

namespace Sys2Proof.Machine

/-- The two trap kinds (R140). -/
inductive TrapKind where
  | segfault
  | unkop
deriving DecidableEq, Repr

/-- The causes of a trap (R140); the kind is all that is latched. -/
inductive TrapCause where
  /-- `pc >=u IMEM_BYTES` before the fetch (R141). -/
  | fetchOutOfRange
  /-- A referenced register index outside 0..31 (R142); no decoded word has one. -/
  | registerIndex
  /-- A data address `>=u MEM_WORDS` in `lw` or `sw` (R143). -/
  | memoryAddress
  /-- An R-shape word with an unsupported funct (R144). -/
  | unsupportedFunct
  /-- A word with an unsupported opcode (R144). -/
  | unsupportedOpcode
deriving DecidableEq, Repr

/-- The two modes of the PC effect, each with its operand (R120). -/
inductive PcAdjust where
  | relative16 (operand : Word)
  | absolute26 (operand : BitVec 26)
deriving DecidableEq, Repr

/-- The single state mutation of one instruction (R27, R120). -/
inductive Effect where
  | registerWrite (index : Fin 32) (value : Word)
  | memoryWrite (address value : Word)
  | pcAdjust (a : PcAdjust)
  | noOp
deriving DecidableEq, Repr

/-- What the dispatcher answers: one Effect, or a trap (R76). -/
inductive Dispatched where
  | effect (e : Effect)
  | raise (c : TrapCause)
deriving DecidableEq, Repr

/-- A memory of `w`-bit cells: the listed cells by rising address, none equal to what an unlisted cell reads as
(`Memory.wf`). The instruction store has byte cells, `Memory 8`, a list of `Host.Cell`; the data memory has word cells, because
the spec's smallest addressable unit there is the 32-bit word (R31, R33): log entry 7. -/
abbrev Memory (w : Nat) := List (Nat × BitVec w)

/-- The parameters of a run, which no step changes (R5, R10). The bounds of R5 are in the types: log entry 9. -/
structure Params where
  /-- The bytes of the instruction store (R24). -/
  imem : Memory 8
  /-- `IMEM_WORDS`, the length of the instruction store in words (R5). -/
  imemWords : Fin (Config.imemWordsMax + 1)
  /-- `MEM_WORDS`, the capacity of the data memory in words (R5, R22). -/
  memWords : Fin (Config.memWordsMax + 1)
deriving DecidableEq, Repr

/-- The complete architectural state (R10), with the parameters of the run beside it (log entry 2). -/
structure State where
  /-- The program counter, a byte offset into the instruction store (R11, R12). -/
  pc : Word
  /-- The halted flag (R14). -/
  halted : Bool
  /-- The write-once trap record; `none` is NONE (R15). -/
  trapKind : Option TrapKind
  /-- The registers `x[0]` to `x[31]`, all ordinary (R17, R18). -/
  regs : Vector Word 32
  /-- The data memory, indexed by word (R22, R31). -/
  mem : Memory 32
  /-- The instruction store and the capacities (R5). -/
  params : Params
deriving DecidableEq, Repr

/-- There is no fault: the step is total and every trap of the spec is a state it describes, taken as a next state (R77,
R146; log entry 1). Nobody raises one. -/
inductive Fault
deriving DecidableEq, Repr

/-- Why a step has no meaning. -/
inductive Refusal where
  /-- Raised by an arm of `exec` for an instruction without a meaning; no arm does. Safe: the machine stops where the hardware
  goes on. -/
  | notModelled (mnemonic : String)
  /-- Raised by the execution loop for a Running state whose `pc` is not a multiple of 4, as R34 and U11 ask; no state reached
  from a reset has one (R13). Safe: nothing can be claimed of such a step. -/
  | misalignedPc
deriving DecidableEq, Repr

/-- The outcome of a step of this machine. -/
abbrev Outcome := Host.Outcome State Fault Refusal

/-- The state at the first step of a run, from what the environment supplies (R161, R163). -/
def State.boot (params : Params) (regs : Vector Word 32) (mem : Memory 32) : State where
  pc := 0#32
  halted := false
  trapKind := none
  regs := regs
  mem := mem
  params := params

/-- The parameters of a reset machine with no program loaded: DESIGN CHOICE, log entries 3 and 5. -/
def Params.reset : Params where
  imem := []
  imemWords := 0
  memWords := ⟨Config.memWordsReference, by decide⟩

/-- The machine right after reset: `pc`, `halted`, `trap_kind` as R161 says, and, for what the environment supplies, the
values of log entries 3, 4 and 5. -/
def State.reset : State :=
  State.boot Params.reset (Vector.replicate 32 Config.resetRegister) []

end Sys2Proof.Machine
end

