-- ==== Sys2Proof/Machine/Flags.lean ====
section
/-! DEFINITION. The hardware has no flags, condition codes or predicates (R25). The one condition an instruction computes is
`beq`'s, which no state keeps. -/

namespace Sys2Proof.Machine

/-- The condition of `beq`: `rt - rs = 0` on the 32-bit patterns (R102). -/
def branchCondition (rs rt : Word) : Bool := rt - rs == 0#32

end Sys2Proof.Machine
end

