-- ==== Sys2Proof/Machine/Operands.lean ====
section
/-! DEFINITION. Operand forms: the register-index check (R21, R142), the sign-extended immediate (R54), and the values formed
from operands (R102, R103, R104, R110). -/

namespace Sys2Proof.Machine

/-- A register index that passed the check of R21, or nothing. -/
def regIndex (r : Nat) : Option (Fin 32) :=
  if h : r < 32 then some ⟨r, h⟩ else none

/-- `sext_16` (R7, R54): the 32-bit pattern with the same two's-complement value. -/
def sext16 (imm : BitVec 16) : Word := imm.signExtend 32

/-- `x[rs] + sext_16(imm)` modulo 2^32, for `addiu` a value (R101), for `lw` and `sw` a word index (R31, R38). -/
def basePlusImm (base : Word) (imm : BitVec 16) : Word := base + sext16 imm

/-- The sequential successor `pc + 4` modulo 2^32 (R13). -/
def nextPc (pc : Word) : Word := pc + 4#32

/-- The target of the PC effect relative16 (R123). -/
def branchTarget (pc operand : Word) : Word := nextPc pc + (operand <<< 2)

/-- The target of the PC effect absolute26 (R55, R124). -/
def jumpTarget (pc : Word) (address : BitVec 26) : Word :=
  (nextPc pc &&& 0xF0000000#32) ||| ((address.setWidth 32 <<< 2) &&& 0x0FFFFFFF#32)

/-- The target of a PC effect (R120). -/
def PcAdjust.target (a : PcAdjust) (pc : Word) : Word :=
  match a with
  | .relative16 operand => branchTarget pc operand
  | .absolute26 operand => jumpTarget pc operand

end Sys2Proof.Machine
end

