-- ==== Sys2Proof/Machine/Ops.lean ====
section
/-! DEFINITION. The named operations: cells of memory, registers, fetch, traps, reset, halting, and the application of an
Effect (R120). These are the only places where state is written. -/

namespace Sys2Proof.Machine

/-! ### Memory cells, for the instruction store and the data memory alike -/

/-- The cell at an address (R36, R72). -/
def Memory.read {w : Nat} : Memory w → Nat → BitVec w
  | [], _ => Config.unlistedCell w
  | (k, v) :: rest, a => if k = a then v else Memory.read rest a

/-- The memory with one cell set (R36); a cell set to what an unlisted one reads as is not listed. -/
def Memory.write {w : Nat} : Memory w → Nat → BitVec w → Memory w
  | [], a, v => if v = Config.unlistedCell w then [] else [(a, v)]
  | (k, u) :: rest, a, v =>
    if a < k then
      if v = Config.unlistedCell w then (k, u) :: rest else (a, v) :: (k, u) :: rest
    else if a = k then
      if v = Config.unlistedCell w then rest else (a, v) :: rest
    else (k, u) :: Memory.write rest a v

/-- The canonical form: addresses strictly rising, no cell equal to what an unlisted one reads as. -/
def Memory.wf {w : Nat} : Memory w → Bool
  | [] => true
  | (k, v) :: rest =>
    decide (v ≠ Config.unlistedCell w) && rest.all (fun c => decide (k < c.1)) && Memory.wf rest

/-- Every listed cell lies below a bound. -/
def Memory.within {w : Nat} (m : Memory w) (bound : Nat) : Bool :=
  m.all (fun c => decide (c.1 < bound))

/-! ### Registers (R8, R17, R18): any index 0..31, register 0 included -/

/-- `x[i]`. -/
def State.readReg (s : State) (i : Fin 32) : Word := s.regs[i.val]

/-- `x[i] <- v`. -/
def State.writeReg (s : State) (i : Fin 32) (v : Word) : State :=
  { s with regs := s.regs.set i.val v }

/-! ### Data memory (R36, R38) -/

/-- `MEM_WORDS`. -/
def State.memWords (s : State) : Nat := s.params.memWords.val

/-- The data bounds check, unsigned (R38). -/
def State.memInBounds (s : State) (addr : Word) : Bool := decide (addr.toNat < s.memWords)

/-- `MemRead(addr, 4)`. -/
def State.memRead (s : State) (addr : Word) : Word := Memory.read s.mem addr.toNat

/-- `MemWrite(addr, 4, v)`. -/
def State.memWrite (s : State) (addr v : Word) : State :=
  { s with mem := Memory.write s.mem addr.toNat v }

/-! ### The fetch multiplexer (R39, R71, R72) -/

/-- `IMEM_BYTES` (R5). -/
def State.imemBytes (s : State) : Nat := 4 * s.params.imemWords.val

/-- One byte of the instruction store (R24). -/
def State.imemByte (s : State) (offset : Nat) : Byte := Memory.read s.params.imem offset

/-- `IFetch(p)`: the four bytes at `[p, p+4)`, most significant first (R32, R72). -/
def State.ifetch (s : State) (p : Word) : Word :=
  assemble (s.imemByte p.toNat) (s.imemByte (p.toNat + 1)) (s.imemByte (p.toNat + 2)) (s.imemByte (p.toNat + 3))

/-- The fetch bounds check, unsigned (R39, R71). -/
def State.fetchInRange (s : State) : Bool := decide (s.pc.toNat < s.imemBytes)

/-- `pc` is a multiple of 4 (R13, R34). -/
def State.pcAligned (s : State) : Bool := decide (s.pc.toNat % 4 = 0)

/-! ### Halting, traps, reset -/

/-- HALT: the halted flag and nothing else (R111). -/
def State.halt (s : State) : State := { s with halted := true }

/-- The kind of each cause (R140). -/
def TrapCause.kind : TrapCause → TrapKind
  | .fetchOutOfRange => .segfault
  | .registerIndex => .segfault
  | .memoryAddress => .segfault
  | .unsupportedFunct => .unkop
  | .unsupportedOpcode => .unkop

/-- The trap cause of a word that is no instruction (R144). -/
def unkopTrap : UnkopCause → TrapCause
  | .funct _ => .unsupportedFunct
  | .opcode _ => .unsupportedOpcode

/-- Trap entry (R146): the halted flag and the trap record; `pc`, registers and memory as they were. There is no return from
a trap (R148): only reset leaves Halted. -/
def State.takeTrap (c : TrapCause) (s : State) : State :=
  { s with halted := true, trapKind := some c.kind }

/-- The trap report a stopped core shows: the latched kind and `pc` (R15, R134, R147). -/
def State.latchedReport (s : State) : Option (TrapKind × Word) :=
  s.trapKind.map (fun k => (k, s.pc))

/-- The 2-bit code of the trap record (R15, decision D11). -/
def trapCode : Option TrapKind → BitVec 2
  | none => 0b00#2
  | some .segfault => 0b01#2
  | some .unkop => 0b10#2

/-- The reset event (R160): the core's own registers; registers, memory and parameters are the environment's and stay. -/
def State.applyReset (s : State) : State :=
  { s with pc := 0#32, halted := false, trapKind := none }

/-! ### Applying an Effect -/

/-- The state after one Effect (R120), each case by its own rule: R121, R122, R123 and R124, R125. -/
def State.apply (e : Effect) (s : State) : State :=
  match e with
  | .registerWrite index value => { s.writeReg index value with pc := nextPc s.pc }
  | .memoryWrite address value => { s.memWrite address value with pc := nextPc s.pc }
  | .pcAdjust a => { s with pc := a.target s.pc }
  | .noOp => { s with pc := nextPc s.pc }

/-- The end of a step: the Effect applied, or the trap taken with nothing else written (R70, R127). -/
def State.finish (s : State) (d : Dispatched) : Outcome :=
  match d with
  | .effect e => .next (s.apply e)
  | .raise c => .next (s.takeTrap c)

/-! ### Loading a program, the environment's act before a run (R163) -/

/-- The cells with a list of bytes set from an offset on. -/
def Memory.writeBytes (m : Memory 8) (offset : Nat) : List Byte → Memory 8
  | [] => m
  | b :: rest => Memory.writeBytes (Memory.write m offset b) (offset + 1) rest

/-- The least length of a store, in words, that holds the word at a byte offset of a 32-bit `pc`. -/
def wordsToHold (p : Word) : Fin (Config.imemWordsMax + 1) :=
  ⟨p.toNat / 4 + 1, by
    have := p.isLt
    simp only [Config.imemWordsMax]
    omega⟩

/-- The state with one word placed in the instruction store where `pc` points, the store lengthened if it is shorter: log
entry 3. -/
def State.loadWord (s : State) (w : Word) : State :=
  { s with params :=
    { s.params with
      imem := Memory.writeBytes s.params.imem s.pc.toNat (wordBytes w)
      imemWords := max s.params.imemWords (wordsToHold s.pc) } }

end Sys2Proof.Machine
end

