-- ==== Sys2Proof/Machine/IShape.lean ====
section
/-! DEFINITION. The I-shape instructions `addiu`, `beq`, `lw`, `sw` (42_i_shape.md). -/

namespace Sys2Proof.Machine

/-- What the four share (R100): the index check on `rs` and `rt` (R142), then the instruction's own dispatch. -/
def dispatchI (rs rt : Nat) (k : Fin 32 → Fin 32 → Dispatched) : Dispatched :=
  match regIndex rs, regIndex rt with
  | some rs, some rt => k rs rt
  | _, _ => .raise .registerIndex

/-- The dispatch of `addiu` (R101): no trap. -/
def dispatchAddiu (rt rs : Nat) (imm : BitVec 16) (s : State) : Dispatched :=
  dispatchI rs rt fun rs rt => .effect (.registerWrite rt (basePlusImm (s.readReg rs) imm))

/-- The dispatch of `beq` (R102): a PC effect relative16 when the registers are equal, else a no-op. -/
def dispatchBeq (rs rt : Nat) (imm : BitVec 16) (s : State) : Dispatched :=
  dispatchI rs rt fun rs rt =>
    if branchCondition (s.readReg rs) (s.readReg rt) then .effect (.pcAdjust (.relative16 (sext16 imm)))
    else .effect .noOp

/-- The dispatch of `lw` (R103): the word at the address, or SEGFAULT out of bounds (R143). -/
def dispatchLw (rt rs : Nat) (imm : BitVec 16) (s : State) : Dispatched :=
  dispatchI rs rt fun rs rt =>
    if s.memInBounds (basePlusImm (s.readReg rs) imm) then
      .effect (.registerWrite rt (s.memRead (basePlusImm (s.readReg rs) imm)))
    else .raise .memoryAddress

/-- The dispatch of `sw` (R104): a memory write of `x[rt]` at the address, or SEGFAULT out of bounds (R143). -/
def dispatchSw (rt rs : Nat) (imm : BitVec 16) (s : State) : Dispatched :=
  dispatchI rs rt fun rs rt =>
    if s.memInBounds (basePlusImm (s.readReg rs) imm) then
      .effect (.memoryWrite (basePlusImm (s.readReg rs) imm) (s.readReg rt))
    else .raise .memoryAddress

/-- The meaning of `addiu rt, rs, imm` (R101). -/
def execAddiu (rt rs : Nat) (imm : BitVec 16) (s : State) : Outcome := s.finish (dispatchAddiu rt rs imm s)

/-- The meaning of `beq rs, rt, off` (R102). -/
def execBeq (rs rt : Nat) (imm : BitVec 16) (s : State) : Outcome := s.finish (dispatchBeq rs rt imm s)

/-- The meaning of `lw rt, imm(rs)` (R103). -/
def execLw (rt rs : Nat) (imm : BitVec 16) (s : State) : Outcome := s.finish (dispatchLw rt rs imm s)

/-- The meaning of `sw rt, imm(rs)` (R104). -/
def execSw (rt rs : Nat) (imm : BitVec 16) (s : State) : Outcome := s.finish (dispatchSw rt rs imm s)

end Sys2Proof.Machine
end

