-- ==== Sys2Proof/Machine/JShape.lean ====
section
/-! DEFINITION. The J-shape instruction `j` and HALT (43_j_shape_and_halt.md). -/

namespace Sys2Proof.Machine

/-- The dispatch of `j` (R110): a PC effect absolute26, no register referenced, no trap. -/
def dispatchJ (address : BitVec 26) : Dispatched := .effect (.pcAdjust (.absolute26 address))

/-- The meaning of `j target` (R110). -/
def execJ (address : BitVec 26) (s : State) : Outcome := s.finish (dispatchJ address)

/-- The meaning of HALT (R111): no Effect, the halted flag only. -/
def execHalt (s : State) : Outcome := .next s.halt

end Sys2Proof.Machine
end

