-- ==== Sys2Proof/Machine/RShape.lean ====
section
/-! DEFINITION. The R-shape instructions `addu`, `subu`, `and`, `or`, `nor` (41_r_shape_alu.md). -/

namespace Sys2Proof.Machine

/-- What the five share (R96): the index check (R142), both sources read, one register write to `rd`. -/
def dispatchR (rd rs rt : Nat) (alu : Word → Word → Word) (s : State) : Dispatched :=
  match regIndex rs, regIndex rt, regIndex rd with
  | some rs, some rt, some rd => .effect (.registerWrite rd (alu (s.readReg rs) (s.readReg rt)))
  | _, _, _ => .raise .registerIndex

/-- `rs + rt` modulo 2^32 (R90, R91). -/
def aluAddu (rs rt : Word) : Word := rs + rt

/-- `rs - rt` modulo 2^32 (R90, R92). -/
def aluSubu (rs rt : Word) : Word := rs - rt

/-- `rs & rt` (R93). -/
def aluAnd (rs rt : Word) : Word := rs &&& rt

/-- `rs | rt` (R94). -/
def aluOr (rs rt : Word) : Word := rs ||| rt

/-- `~(rs | rt)`, all 32 bits (R95). -/
def aluNor (rs rt : Word) : Word := ~~~(rs ||| rt)

/-- `addu` (R91). -/
def dispatchAddu (rd rs rt : Nat) (s : State) : Dispatched := dispatchR rd rs rt aluAddu s

/-- `subu` (R92). -/
def dispatchSubu (rd rs rt : Nat) (s : State) : Dispatched := dispatchR rd rs rt aluSubu s

/-- `and` (R93). -/
def dispatchAnd (rd rs rt : Nat) (s : State) : Dispatched := dispatchR rd rs rt aluAnd s

/-- `or` (R94). -/
def dispatchOr (rd rs rt : Nat) (s : State) : Dispatched := dispatchR rd rs rt aluOr s

/-- `nor` (R95). -/
def dispatchNor (rd rs rt : Nat) (s : State) : Dispatched := dispatchR rd rs rt aluNor s

/-- The meaning of `addu rd, rs, rt` (R91). -/
def execAddu (rd rs rt : Nat) (s : State) : Outcome := s.finish (dispatchAddu rd rs rt s)

/-- The meaning of `subu rd, rs, rt` (R92). -/
def execSubu (rd rs rt : Nat) (s : State) : Outcome := s.finish (dispatchSubu rd rs rt s)

/-- The meaning of `and rd, rs, rt` (R93). -/
def execAnd (rd rs rt : Nat) (s : State) : Outcome := s.finish (dispatchAnd rd rs rt s)

/-- The meaning of `or rd, rs, rt` (R94). -/
def execOr (rd rs rt : Nat) (s : State) : Outcome := s.finish (dispatchOr rd rs rt s)

/-- The meaning of `nor rd, rs, rt` (R95). -/
def execNor (rd rs rt : Nat) (s : State) : Outcome := s.finish (dispatchNor rd rs rt s)

end Sys2Proof.Machine
end

