-- ==== Sys2Proof/Machine/Dispatch.lean ====
section
/-! DEFINITION. One arm per instruction, each a direct call of its meaning (R76). -/

namespace Sys2Proof.Machine

/-- The instruction's meaning at a state. -/
def exec (i : Instr) (s : State) : Host.Outcome State Fault Refusal :=
  match i with
  | .addu rd rs rt _ => Sys2Proof.Machine.execAddu rd rs rt s
  | .subu rd rs rt _ => Sys2Proof.Machine.execSubu rd rs rt s
  | .and rd rs rt _ => Sys2Proof.Machine.execAnd rd rs rt s
  | .or rd rs rt _ => Sys2Proof.Machine.execOr rd rs rt s
  | .nor rd rs rt _ => Sys2Proof.Machine.execNor rd rs rt s
  | .addiu rt rs imm => Sys2Proof.Machine.execAddiu rt rs imm s
  | .beq rs rt imm => Sys2Proof.Machine.execBeq rs rt imm s
  | .lw rt rs imm => Sys2Proof.Machine.execLw rt rs imm s
  | .sw rt rs imm => Sys2Proof.Machine.execSw rt rs imm s
  | .j address => Sys2Proof.Machine.execJ address s
  | .halt _ => Sys2Proof.Machine.execHalt s

end Sys2Proof.Machine
end

