-- ==== Sys2Proof/Machine/ExecutionLoop.lean ====
section
/-! DEFINITION. The Execution Loop: one step of the core, in the order of R70 and R145. -/

namespace Sys2Proof.Machine

/-- Running one fetched word (R70): the decoded instruction's meaning, or the UNKOP trap (R144). -/
def runWord (w : Word) (s : State) : Outcome :=
  match decodeWord w with
  | .ok i => exec i s
  | .error c => .next (s.takeTrap (unkopTrap c))

/-- One step (R70): nothing while Halted (R78), a refusal where `pc` is not a multiple of 4 (R34), the fetch check (R71),
then the word at `pc`. -/
def loopStep (s : State) : Outcome :=
  if s.halted then .next s
  else if !s.pcAligned then .refused .misalignedPc
  else if !s.fetchInRange then .next (s.takeTrap .fetchOutOfRange)
  else runWord (s.ifetch s.pc) s

end Sys2Proof.Machine
end

