-- ==== Sys2Proof/Machine/Step.lean ====
section
/-! DEFINITION. The step of the machine, and the host's way to place one instruction where it fetches. -/

namespace Sys2Proof.Machine

/-- `step()` (R70). -/
def step : State → Host.Outcome State Fault Refusal := loopStep

/-- The state with a table row's word loaded where `step` fetches next: the environment's loading of a one-word program
(R163; log entry 3). A Halted core stays Halted. -/
def State.withFetchWord (s : State) (nbits w : Nat) : State := s.loadWord (tableWord nbits w)

end Sys2Proof.Machine
end

