-- ==== Sys2Proof/Machine/Ports.lean ====
section
/-! DEFINITION. The hardware form of the core (50_interfaces.md): what a step request does, the output ports, the trap report,
and the clock edge. The step function is the same with and without these ports (R130). -/

namespace Sys2Proof.Machine

/-- The dispatcher on a decoded instruction (R76); HALT is not dispatched (R70). -/
def dispatchOf (i : Instr) (s : State) : Option Dispatched :=
  match i with
  | .addu rd rs rt _ => some (dispatchAddu rd rs rt s)
  | .subu rd rs rt _ => some (dispatchSubu rd rs rt s)
  | .and rd rs rt _ => some (dispatchAnd rd rs rt s)
  | .or rd rs rt _ => some (dispatchOr rd rs rt s)
  | .nor rd rs rt _ => some (dispatchNor rd rs rt s)
  | .addiu rt rs imm => some (dispatchAddiu rt rs imm s)
  | .beq rs rt imm => some (dispatchBeq rs rt imm s)
  | .lw rt rs imm => some (dispatchLw rt rs imm s)
  | .sw rt rs imm => some (dispatchSw rt rs imm s)
  | .j address => some (dispatchJ address)
  | .halt _ => none

/-- What a step request does at a state: exactly one of the endings that R70 and R77 list. -/
inductive Activity where
  /-- Halted, or no request: nothing (R78, R132). -/
  | idle
  /-- A HALT word (R111). -/
  | stops
  /-- One Effect is applied (R120). -/
  | acts (e : Effect)
  /-- A trap is taken (R146). -/
  | traps (c : TrapCause)
  /-- The spec gives the step no meaning (R34). -/
  | refuses (r : Refusal)
deriving DecidableEq, Repr

/-- The activity of one fetched word. -/
def wordActivity (w : Word) (s : State) : Activity :=
  match decodeWord w with
  | .error c => .traps (unkopTrap c)
  | .ok i =>
    match dispatchOf i s with
    | none => .stops
    | some (.effect e) => .acts e
    | some (.raise c) => .traps c

/-- The activity of a step request, with the priorities of R145. -/
def activity (s : State) : Activity :=
  if s.halted then .idle
  else if !s.pcAligned then .refuses .misalignedPc
  else if !s.fetchInRange then .traps .fetchOutOfRange
  else wordActivity (s.ifetch s.pc) s

/-- An activity carried out. -/
def Activity.perform (a : Activity) (s : State) : Outcome :=
  match a with
  | .idle => .next s
  | .stops => .next s.halt
  | .acts e => .next (s.apply e)
  | .traps c => .next (s.takeTrap c)
  | .refuses r => .refused r

/-- The activity at a clock edge: none unless a step is requested and reset is low (R132, R160). -/
def edgeActivity (rst stepEn : Bool) (s : State) : Activity :=
  if !rst && stepEn then activity s else .idle

/-- One rising edge of `clk` (R132, R160): reset wins whatever `step_en` is; else a step if requested; else nothing. -/
def clockEdge (rst stepEn : Bool) (s : State) : Outcome :=
  if rst then .next s.applyReset
  else if stepEn then step s
  else .next s

/-! ### Inputs that the environment's storage drives (R131) -/

/-- The word of the instruction store at `imem_addr`, where there is one (`imem_rdata`, R72). -/
def State.fetchedWord (s : State) : Option Word :=
  if s.pcAligned && s.fetchInRange then some (s.ifetch s.pc) else none

/-- `imem_len`, 33 bits wide so that 2^32 bytes fit. -/
def State.imemLen (s : State) : BitVec 33 := BitVec.ofNat 33 s.imemBytes

/-- `dmem_cap`. -/
def State.dmemCap (s : State) : Word := BitVec.ofNat 32 s.memWords

/-- `dmem_rdata` for a `dmem_addr`, looked at only below `dmem_cap`. -/
def State.dmemRdata (s : State) (addr : Word) : Option Word :=
  if s.memInBounds addr then some (s.memRead addr) else none

/-- `rf_rdata1` and `rf_rdata2` for a read index: a combinational read of `x[i]` (R126, R131). -/
def State.rfRdata (s : State) (index : BitVec 5) : Word := s.readReg index.toFin

/-- The `rs` and `rt` fields of an R- or I-shape word: `rf_raddr1`, `rf_raddr2` (R131). -/
def readIndices (w : Word) : Option (BitVec 5 × BitVec 5) :=
  match decodeFields (classify (firstByte w)) w with
  | some (.r _ rs rt _ _ _) => some (rs, rt)
  | some (.i _ rs rt _) => some (rs, rt)
  | some (.j _ _) => none
  | none => none

/-- The destination field of a word (`rf_waddr`, R131): `rd` of R-shape, `rt` of `addiu` and `lw`. -/
def writeIndex (w : Word) : Option (BitVec 5) :=
  match decodeFields (classify (firstByte w)) w with
  | some (.r _ _ _ rd _ _) => some rd
  | some (.i opcode _ rt _) => if opcode = 0x09#6 ∨ opcode = 0x23#6 then some rt else none
  | some (.j _ _) => none
  | none => none

/-- The word index that a `sw` stores to at a state (R104); no other instruction stores. -/
def storeAddress (i : Instr) (s : State) : Option Word :=
  match i with
  | .sw _ rs imm => (regIndex rs).map (fun rs => basePlusImm (s.readReg rs) imm)
  | _ => none

/-- The word index that a `lw` loads from at a state (R103); no other instruction loads. -/
def loadAddress (i : Instr) (s : State) : Option Word :=
  match i with
  | .lw _ rs imm => (regIndex rs).map (fun rs => basePlusImm (s.readReg rs) imm)
  | _ => none

/-- The word index that `lw` and `sw` put on `dmem_addr` (R131). -/
def dataAddress (w : Word) (s : State) : Option Word :=
  match decodeWord w with
  | .ok i => (storeAddress i s).or (loadAddress i s)
  | .error _ => none

/-! ### Outputs -/

/-- The output ports (R131); `none` where the spec gives a port no value (log entry 14). -/
structure PortOut where
  imemAddr : Word
  rfRaddr : Option (BitVec 5 × BitVec 5)
  rfWe : Bool
  rfWaddr : Option (BitVec 5)
  rfWdata : Option Word
  dmemAddr : Option Word
  dmemWe : Bool
  dmemWdata : Option Word
  halted : Bool
  trapValid : Bool
  trapKind : BitVec 2
  trapPc : Word
deriving DecidableEq, Repr

/-- `rf_wdata` of an activity: the value of the register write it applies (R131). -/
def Activity.rfWdata : Activity → Option Word
  | .acts (.registerWrite _ value) => some value
  | _ => none

/-- Whether an activity applies a memory write (`dmem_we`, R131). -/
def Activity.writesMemory : Activity → Bool
  | .acts (.memoryWrite _ _) => true
  | _ => false

/-- The kind of the trap that an activity raises. -/
def Activity.trap : Activity → Option TrapKind
  | .traps c => some c.kind
  | _ => none

/-- The output ports during a clock cycle with these inputs (R131, R133, R134). The addresses, and `dmem_wdata`, which is
`x[rt]`, follow the fetched word alone; the enables, `rf_wdata` and the trap outputs follow what the edge does. -/
def ports (rst stepEn : Bool) (s : State) : PortOut where
  imemAddr := s.pc
  rfRaddr := s.fetchedWord.bind readIndices
  rfWe := (edgeActivity rst stepEn s).rfWdata.isSome
  rfWaddr := s.fetchedWord.bind writeIndex
  rfWdata := (edgeActivity rst stepEn s).rfWdata
  dmemAddr := s.fetchedWord.bind (fun w => dataAddress w s)
  dmemWe := (edgeActivity rst stepEn s).writesMemory
  dmemWdata := (s.fetchedWord.bind readIndices).map (fun r => s.rfRdata r.2)
  halted := s.halted
  trapValid := (edgeActivity rst stepEn s).trap.isSome
  trapKind := trapCode ((edgeActivity rst stepEn s).trap.or s.trapKind)
  trapPc := s.pc

/-- The query `is_halted()` (R130, R133). -/
def isHalted (s : State) : Bool := s.halted

/-- `report(kind, pc)`: the pair that a step request at a state emits on the side channel (R147). -/
def stepReport (s : State) : Option (TrapKind × Word) :=
  (activity s).trap.map (fun k => (k, s.pc))

end Sys2Proof.Machine
end

