-- ==== Sys2Proof/Safety.lean ====
section
/-! DEFINITION. What counts as a final state, a clean stop and a trapped stop (R79, R152), and the invariant that every step
keeps (R13, R15, R40). -/

namespace Sys2Proof.Machine

/-- A run ends at the first state with `halted = true` (R79). -/
abbrev State.Final (s : State) : Prop := s.halted = true

/-- A final state reached by HALT (R79, R152). -/
abbrev State.CleanStop (s : State) : Prop := s.halted = true ∧ s.trapKind = none

/-- A final state reached by a trap of a kind (R79, R152). -/
abbrev State.TrappedStop (s : State) (k : TrapKind) : Prop := s.halted = true ∧ s.trapKind = some k

/-- A Running core whose next step fetches a word: not halted (R14), `pc` a multiple of 4 (R13) and inside the instruction
store (R71). -/
abbrev State.Fetching (s : State) : Prop :=
  s.halted = false ∧ s.pc.toNat % 4 = 0 ∧ s.pc.toNat < s.imemBytes

/-- The invariant of every reachable state: `pc` is a multiple of 4 (R13), a recorded trap implies Halted (R15), and both
memories are in canonical form and list nothing outside their spaces (R40). -/
abbrev State.Inv (s : State) : Prop :=
  s.pc.toNat % 4 = 0 ∧
  (s.trapKind ≠ none → s.halted = true) ∧
  Memory.wf s.mem = true ∧ Memory.within s.mem s.memWords = true ∧
  Memory.wf s.params.imem = true ∧ Memory.within s.params.imem s.imemBytes = true

/-- A run of a number of steps (R79), stopping at the first refusal: `Host.Core.run` of this machine
(`Laws/Run.lean`, `runFor_eq_host_run`). -/
def runFor : Nat → State → Outcome
  | 0, s => .next s
  | n + 1, s =>
    match step s with
    | .next t => runFor n t
    | .fault r => .fault r
    | .refused r => .refused r

/-- A safe outcome of a run: the machine neither faults nor is refused, and the state is either still Running or a clean stop. -/
def SafeOutcome : Outcome → Bool
  | .next s => !s.halted || decide (s.trapKind = none)
  | .fault _ => false
  | .refused _ => false

end Sys2Proof.Machine
end

