-- ==== Sys2Proof/Certificates/Slice0/Obligations.lean ====
section
/-! DEFINITION. The statements for the provers. Each docstring names the rule of spec/ it formalises, or the sections and log
entries it rests on. -/

open Sys2Proof Sys2Proof.Machine

/-- O1 (30_encoding.md section 3, 95_test_vectors.md Part 2). One word of each of the eleven instructions decodes to that instruction. -/
def Obligations.OneWordPerRowDecodes : Prop :=
  decodeWord 0x00221821#32 = .ok (.addu 3 1 2 0#5) ∧
  decodeWord 0x00222023#32 = .ok (.subu 4 1 2 0#5) ∧
  decodeWord 0x00222824#32 = .ok (.and 5 1 2 0#5) ∧
  decodeWord 0x00223025#32 = .ok (.or 6 1 2 0#5) ∧
  decodeWord 0x03FFF827#32 = .ok (.nor 31 31 31 0#5) ∧
  decodeWord 0x2422FFFF#32 = .ok (.addiu 2 1 0xFFFF#16) ∧
  decodeWord 0x10220003#32 = .ok (.beq 1 2 3#16) ∧
  decodeWord 0x8C220004#32 = .ok (.lw 2 1 4#16) ∧
  decodeWord 0xAC040002#32 = .ok (.sw 4 0 2#16) ∧
  decodeWord 0x0BFFFFFF#32 = .ok (.j 0x3FFFFFF#26) ∧
  decodeWord 0xFC221821#32 = .ok (.halt 0x221821#26)

/-- O2 (30_encoding.md section 5, 95_test_vectors.md section 1.1 T7). Decoding the encoding of any well-formed instruction gives it back, as a word and as bytes followed by anything. -/
def Obligations.DecodeInvertsEncode : Prop :=
  ∀ i : Instr, i.WellFormed →
    decodeWord (encode i) = .ok i ∧
    ∀ rest : List Byte, decode (encodeBytes i ++ rest) = .ok (i, rest)

/-- O3 (30_encoding.md section 5, 10_state.md section 4). Re-encoding a decoded instruction gives the word back, and every decoded instruction is well-formed. -/
def Obligations.EncodeInvertsDecode : Prop :=
  ∀ (w : Word) (i : Instr), decodeWord w = .ok i → encode i = w ∧ i.WellFormed

/-- O4 (30_encoding.md section 1, 30_encoding.md section 5). Cutting any word into the fields of any shape and packing them again gives the word, and packing any fields and cutting gives them. That this holds for every 32-bit word in any shape is the spec's own inference, marked derived in R65. -/
def Obligations.FieldsRepackToTheWord : Prop :=
  (∀ (sh : Shape) (w : Word) (d : Decoded), decodeFields sh w = some d → packFields d = w) ∧
  (∀ (o : BitVec 6) (rs rt rd sh : BitVec 5) (f : BitVec 6),
    decodeFields .r (packFields (.r o rs rt rd sh f)) = some (.r o rs rt rd sh f)) ∧
  (∀ (o : BitVec 6) (rs rt : BitVec 5) (imm : BitVec 16),
    decodeFields .i (packFields (.i o rs rt imm)) = some (.i o rs rt imm)) ∧
  (∀ (o : BitVec 6) (address : BitVec 26),
    decodeFields .j (packFields (.j o address)) = some (.j o address))

/-- O5 (R51, R52). Every R-shape and I-shape field is its range of bits read as a number, and the word is the weighted sum of its fields. -/
def Obligations.FieldsAreTheBitRanges : Prop :=
  ∀ w : Word,
    (opcodeField w).toNat = w.toNat / 2 ^ 26 ∧
    (rsField w).toNat = w.toNat / 2 ^ 21 % 2 ^ 5 ∧
    (rtField w).toNat = w.toNat / 2 ^ 16 % 2 ^ 5 ∧
    (rdField w).toNat = w.toNat / 2 ^ 11 % 2 ^ 5 ∧
    (shamtField w).toNat = w.toNat / 2 ^ 6 % 2 ^ 5 ∧
    (functField w).toNat = w.toNat % 2 ^ 6 ∧
    (immField w).toNat = w.toNat % 2 ^ 16 ∧
    w.toNat = (opcodeField w).toNat * 2 ^ 26 + (rsField w).toNat * 2 ^ 21 + (rtField w).toNat * 2 ^ 16 +
      (rdField w).toNat * 2 ^ 11 + (shamtField w).toNat * 2 ^ 6 + (functField w).toNat ∧
    w.toNat = (opcodeField w).toNat * 2 ^ 26 + (rsField w).toNat * 2 ^ 21 + (rtField w).toNat * 2 ^ 16 +
      (immField w).toNat ∧
    decodeFields .r w =
      some (.r (opcodeField w) (rsField w) (rtField w) (rdField w) (shamtField w) (functField w)) ∧
    decodeFields .i w = some (.i (opcodeField w) (rsField w) (rtField w) (immField w))

/-- O6 (R73). The type classifier answers R, J, HALT or I by the top six bits of the first byte, for all 256 bytes. -/
def Obligations.ClassifierFollowsTheOpcode : Prop :=
  ∀ b : Byte, classify b =
    if b.toNat / 4 = 0x00 then Shape.r
    else if b.toNat / 4 = 0x02 then Shape.j
    else if b.toNat / 4 = 0x3F then Shape.halt
    else Shape.i

/-- O7 (30_encoding.md section 3). A word decodes to an instruction exactly when its masked bits match; the eleven patterns are disjoint; a word that matches none is rejected. Disjointness and totality are the spec's own inference, marked derived in R59. -/
def Obligations.MatchAndMaskDecide : Prop :=
  (∀ (x : Op) (w : Word), (∃ i, decodeWord w = .ok i ∧ i.op = x) ↔ w &&& x.mask = x.pattern) ∧
  (∀ (x y : Op) (w : Word), w &&& x.mask = x.pattern → w &&& y.mask = y.pattern → x = y) ∧
  (∀ w : Word, (∃ c, decodeWord w = .error c) ↔ ∀ x : Op, w &&& x.mask ≠ x.pattern)

/-- O8 (R60, R144). A fetched word with an unsupported funct or opcode halts the core, changes nothing else the program can see, and reports (UNKOP, pc). What the trap record holds is stated by TrapEntryLatchesTheKind (the spec's decision D10). -/
def Obligations.UnsupportedWordsTrapUnkop : Prop :=
  (∀ (s : State) (w : Word), s.Fetching → s.ifetch s.pc = w →
    ((opcodeField w = 0x00#6 ∧ functField w ∉ [0x21#6, 0x23#6, 0x24#6, 0x25#6, 0x27#6]) ∨
      opcodeField w ∉ [0x00#6, 0x02#6, 0x04#6, 0x09#6, 0x23#6, 0x2B#6, 0x3F#6]) →
    stepReport s = some (.unkop, s.pc) ∧
    ∃ t, step s = .next t ∧ t.halted = true ∧ t.pc = s.pc ∧ t.regs = s.regs ∧ t.mem = s.mem ∧ t.params = s.params) ∧
  (opcodeField 0#32 = 0x00#6 ∧ functField 0#32 ∉ [0x21#6, 0x23#6, 0x24#6, 0x25#6, 0x27#6])

/-- O9 (R91). addu: the words of its pattern decode to it, and it writes x[rs] + x[rt] to x[rd] and advances pc by 4, for all registers and states. Sums are modulo 2^32, as the rule's pseudocode writes (decisions D2 and D3). -/
def Obligations.AdduAddsRegisters : Prop :=
  (∀ w : Word, w &&& 0xFC00003F#32 = 0x00000021#32 →
    decodeWord w = .ok (.addu (rdField w).toNat (rsField w).toNat (rtField w).toNat (shamtField w))) ∧
  (∀ (rd rs rt : Fin 32) (shamt : BitVec 5) (s : State),
    exec (.addu rd.val rs.val rt.val shamt) s =
      .next (State.mk (s.pc + 4#32) s.halted s.trapKind
        (s.regs.set rd.val (s.regs[rs.val] + s.regs[rt.val])) s.mem s.params))

/-- O10 (R92). subu: the words of its pattern decode to it, and it writes x[rs] - x[rt] to x[rd] and advances pc by 4, for all registers and states. Sums are modulo 2^32, as the rule's pseudocode writes (decisions D2 and D3). -/
def Obligations.SubuSubtractsRegisters : Prop :=
  (∀ w : Word, w &&& 0xFC00003F#32 = 0x00000023#32 →
    decodeWord w = .ok (.subu (rdField w).toNat (rsField w).toNat (rtField w).toNat (shamtField w))) ∧
  (∀ (rd rs rt : Fin 32) (shamt : BitVec 5) (s : State),
    exec (.subu rd.val rs.val rt.val shamt) s =
      .next (State.mk (s.pc + 4#32) s.halted s.trapKind
        (s.regs.set rd.val (s.regs[rs.val] - s.regs[rt.val])) s.mem s.params))

/-- O11 (R93). and: the words of its pattern decode to it, and it writes x[rs] & x[rt] to x[rd] and advances pc by 4, for all registers and states. Sums are modulo 2^32, as the rule's pseudocode writes (decisions D2 and D3). -/
def Obligations.AndIntersectsBits : Prop :=
  (∀ w : Word, w &&& 0xFC00003F#32 = 0x00000024#32 →
    decodeWord w = .ok (.and (rdField w).toNat (rsField w).toNat (rtField w).toNat (shamtField w))) ∧
  (∀ (rd rs rt : Fin 32) (shamt : BitVec 5) (s : State),
    exec (.and rd.val rs.val rt.val shamt) s =
      .next (State.mk (s.pc + 4#32) s.halted s.trapKind
        (s.regs.set rd.val (s.regs[rs.val] &&& s.regs[rt.val])) s.mem s.params))

/-- O12 (R94). or: the words of its pattern decode to it, and it writes x[rs] | x[rt] to x[rd] and advances pc by 4, for all registers and states. Sums are modulo 2^32, as the rule's pseudocode writes (decisions D2 and D3). -/
def Obligations.OrUnitesBits : Prop :=
  (∀ w : Word, w &&& 0xFC00003F#32 = 0x00000025#32 →
    decodeWord w = .ok (.or (rdField w).toNat (rsField w).toNat (rtField w).toNat (shamtField w))) ∧
  (∀ (rd rs rt : Fin 32) (shamt : BitVec 5) (s : State),
    exec (.or rd.val rs.val rt.val shamt) s =
      .next (State.mk (s.pc + 4#32) s.halted s.trapKind
        (s.regs.set rd.val (s.regs[rs.val] ||| s.regs[rt.val])) s.mem s.params))

/-- O13 (R95). nor: the words of its pattern decode to it, and it writes ~(x[rs] | x[rt]) to x[rd] and advances pc by 4, for all registers and states. Sums are modulo 2^32, as the rule's pseudocode writes (decisions D2 and D3). -/
def Obligations.NorComplementsTheUnion : Prop :=
  (∀ w : Word, w &&& 0xFC00003F#32 = 0x00000027#32 →
    decodeWord w = .ok (.nor (rdField w).toNat (rsField w).toNat (rtField w).toNat (shamtField w))) ∧
  (∀ (rd rs rt : Fin 32) (shamt : BitVec 5) (s : State),
    exec (.nor rd.val rs.val rt.val shamt) s =
      .next (State.mk (s.pc + 4#32) s.halted s.trapKind
        (s.regs.set rd.val (~~~(s.regs[rs.val] ||| s.regs[rt.val]))) s.mem s.params))

/-- O14 (41_r_shape_alu.md section 1, 10_state.md section 4). addu, subu, and, or, nor: only x[rd] and pc change. -/
def Obligations.RShapeFrame : Prop :=
  ∀ (i : Instr) (s t : State), i.shape = .r → exec i s = .next t →
    (∀ r : Fin 32, i.writtenReg ≠ some r.val → t.readReg r = s.readReg r) ∧
    (∀ a : Nat, Memory.read t.mem a = Memory.read s.mem a) ∧
    t.params = s.params ∧
    (i.WellFormed → t.halted = s.halted ∧ t.trapKind = s.trapKind)

/-- O15 (60_exceptions.md section 1, 92_eei_decisions.md D21, notes/assumptions/10.md). An instruction with a register index of 32 or more takes SEGFAULT and writes nothing else. The check is unreachable in the hardware: the spec's decision D21, the model's log entry 10. -/
def Obligations.RegisterIndexOutOfRangeTraps : Prop :=
  ∀ (i : Instr) (s : State), ¬ i.WellFormed →
    exec i s = .next (State.mk s.pc true (some .segfault) s.regs s.mem s.params)

/-- O16 (R101). addiu: its words decode to it, and it writes x[rs] + sext_16(imm) to x[rt] and advances pc by 4, for all operands and states. Sums are modulo 2^32, as the rule's pseudocode writes (decisions D2 and D3). -/
def Obligations.AddiuAddsSignExtendedImmediate : Prop :=
  (∀ w : Word, w &&& 0xFC000000#32 = 0x24000000#32 →
    decodeWord w = .ok (.addiu (rtField w).toNat (rsField w).toNat (immField w))) ∧
  (∀ (rt rs : Fin 32) (imm : BitVec 16) (s : State),
    exec (.addiu rt.val rs.val imm) s =
      .next (State.mk (s.pc + 4#32) s.halted s.trapKind
        (s.regs.set rt.val (s.regs[rs.val] + imm.signExtend 32)) s.mem s.params))

/-- O17 (R102). beq: its words decode to it; equal registers go to pc + 4 + (sext_16(imm) << 2), others to pc + 4; nothing else changes. Sums are modulo 2^32, as the rule's pseudocode writes (decision D2); the displacement is sign-extended (C2). -/
def Obligations.BeqBranchesWhenEqual : Prop :=
  (∀ w : Word, w &&& 0xFC000000#32 = 0x10000000#32 →
    decodeWord w = .ok (.beq (rsField w).toNat (rtField w).toNat (immField w))) ∧
  (∀ (rs rt : Fin 32) (imm : BitVec 16) (s : State),
    exec (.beq rs.val rt.val imm) s =
      .next (State.mk
        (if s.regs[rt.val] = s.regs[rs.val] then s.pc + 4#32 + (imm.signExtend 32 <<< 2) else s.pc + 4#32)
        s.halted s.trapKind s.regs s.mem s.params)) ∧
  (∀ (r : Fin 32) (imm : BitVec 16) (s : State), ∃ t, exec (.beq r.val r.val imm) s = .next t ∧
    t.pc = s.pc + 4#32 + (imm.signExtend 32 <<< 2)) ∧
  (∀ (rs rt : Fin 32) (imm : BitVec 16) (s : State), s.pc.toNat % 4 = 0 →
    ∃ t, exec (.beq rs.val rt.val imm) s = .next t ∧ t.pc.toNat % 4 = 0)

/-- O18 (R103). lw: its words decode to it; in bounds it writes mem[x[rs] + sext_16(imm)] to x[rt]; out of bounds it halts, changes nothing else and reports. What the trap record holds is stated by TrapEntryLatchesTheKind (the spec's decision D10). -/
def Obligations.LwLoadsTheWordAtItsIndex : Prop :=
  (∀ w : Word, w &&& 0xFC000000#32 = 0x8C000000#32 →
    decodeWord w = .ok (.lw (rtField w).toNat (rsField w).toNat (immField w))) ∧
  (∀ (rt rs : Fin 32) (imm : BitVec 16) (s : State),
    (s.regs[rs.val] + imm.signExtend 32).toNat < s.params.memWords.val →
    exec (.lw rt.val rs.val imm) s =
      .next (State.mk (s.pc + 4#32) s.halted s.trapKind
        (s.regs.set rt.val (Memory.read s.mem (s.regs[rs.val] + imm.signExtend 32).toNat)) s.mem s.params)) ∧
  (∀ (rt rs : Fin 32) (imm : BitVec 16) (s : State),
    s.params.memWords.val ≤ (s.regs[rs.val] + imm.signExtend 32).toNat →
    (∃ t, exec (.lw rt.val rs.val imm) s = .next t ∧ t.halted = true ∧
      t.pc = s.pc ∧ t.regs = s.regs ∧ t.mem = s.mem ∧ t.params = s.params) ∧
    (s.Fetching → decodeWord (s.ifetch s.pc) = .ok (.lw rt.val rs.val imm) →
      stepReport s = some (.segfault, s.pc)))

/-- O19 (R104). sw: its words decode to it; in bounds it stores x[rt] at word x[rs] + sext_16(imm) and nowhere else; out of bounds it halts and changes nothing else. What the trap record holds is stated by TrapEntryLatchesTheKind (the spec's decision D10). -/
def Obligations.SwStoresTheWordAtItsIndex : Prop :=
  (∀ w : Word, w &&& 0xFC000000#32 = 0xAC000000#32 →
    decodeWord w = .ok (.sw (rtField w).toNat (rsField w).toNat (immField w))) ∧
  (∀ (rt rs : Fin 32) (imm : BitVec 16) (s : State),
    (s.regs[rs.val] + imm.signExtend 32).toNat < s.params.memWords.val →
    ∃ m, exec (.sw rt.val rs.val imm) s =
        .next (State.mk (s.pc + 4#32) s.halted s.trapKind s.regs m s.params) ∧
      (Memory.wf s.mem = true → Memory.read m (s.regs[rs.val] + imm.signExtend 32).toNat = s.regs[rt.val]) ∧
      ∀ b : Nat, b ≠ (s.regs[rs.val] + imm.signExtend 32).toNat → Memory.read m b = Memory.read s.mem b) ∧
  (∀ (rt rs : Fin 32) (imm : BitVec 16) (s : State),
    s.params.memWords.val ≤ (s.regs[rs.val] + imm.signExtend 32).toNat →
    (∃ t, exec (.sw rt.val rs.val imm) s = .next t ∧ t.halted = true ∧
      t.pc = s.pc ∧ t.regs = s.regs ∧ t.mem = s.mem ∧ t.params = s.params) ∧
    (s.Fetching → decodeWord (s.ifetch s.pc) = .ok (.sw rt.val rs.val imm) →
      stepReport s = some (.segfault, s.pc)))

/-- O20 (42_i_shape.md section 2, 10_state.md section 4). addiu and lw: only x[rt] and pc change, no word of memory does. -/
def Obligations.AddiuAndLwFrame : Prop :=
  ∀ (i : Instr) (s t : State), (i.op = .addiu ∨ i.op = .lw) → exec i s = .next t →
    (∀ r : Fin 32, i.writtenReg ≠ some r.val → t.readReg r = s.readReg r) ∧
    (∀ a : Nat, Memory.read t.mem a = Memory.read s.mem a) ∧
    t.params = s.params ∧
    (i.WellFormed → (∀ a, loadAddress i s = some a → s.memInBounds a = true) →
      t.halted = s.halted ∧ t.trapKind = s.trapKind)

/-- O21 (42_i_shape.md section 2, 20_memory.md section 4). sw: no register changes, and no word of memory but the one at the address it computes. -/
def Obligations.SwFrame : Prop :=
  ∀ (i : Instr) (s t : State), i.op = .sw → exec i s = .next t →
    (∀ r : Fin 32, t.readReg r = s.readReg r) ∧
    (∀ a : Word, storeAddress i s = some a → ∀ b : Nat, b ≠ a.toNat → Memory.read t.mem b = Memory.read s.mem b) ∧
    (storeAddress i s = none → ∀ b : Nat, Memory.read t.mem b = Memory.read s.mem b) ∧
    t.params = s.params ∧
    (i.WellFormed → (∀ a, storeAddress i s = some a → s.memInBounds a = true) →
      t.halted = s.halted ∧ t.trapKind = s.trapKind)

/-- O22 (42_i_shape.md section 2, 43_j_shape_and_halt.md). beq, j and HALT: no register and no word of memory changes. -/
def Obligations.BeqJumpAndHaltFrame : Prop :=
  ∀ (i : Instr) (s t : State), (i.op = .beq ∨ i.op = .j ∨ i.op = .halt) → exec i s = .next t →
    (∀ r : Fin 32, t.readReg r = s.readReg r) ∧
    (∀ a : Nat, Memory.read t.mem a = Memory.read s.mem a) ∧
    t.params = s.params ∧
    (i.WellFormed → i.op ≠ .halt → t.halted = s.halted ∧ t.trapKind = s.trapKind) ∧
    (i.op = .halt → t.trapKind = s.trapKind ∧ t.pc = s.pc)

/-- O23 (20_memory.md section 5, 92_eei_decisions.md D5, 92_eei_decisions.md D6). The modulo-2^32 address compared unsigned is in bounds exactly when the exact integer sum is, and is then that sum. The equivalence is the spec's own inference, marked derived in its text. -/
def Obligations.DataAddressCheckIsExact : Prop :=
  ∀ (base : Word) (imm : BitVec 16) (s : State),
    (s.memInBounds (basePlusImm base imm) = true ↔
      0 ≤ base.toInt + imm.toInt ∧ base.toInt + imm.toInt < (s.memWords : Int)) ∧
    (s.memInBounds (basePlusImm base imm) = true →
      ((basePlusImm base imm).toNat : Int) = base.toInt + imm.toInt)

/-- O24 (00_scope.md section 4, 30_encoding.md section 2). sext_16(v) is v below 0x8000 and v + 0xFFFF0000 from there on, and keeps the two's-complement value. -/
def Obligations.SignExtensionFormula : Prop :=
  ∀ v : BitVec 16,
    (sext16 v).toNat = (if v.toNat < 0x8000 then v.toNat else v.toNat + 0xFFFF0000) ∧
    (sext16 v).toInt = v.toInt

/-- O25 (R110). j: its words decode to it, and it sets pc to ((pc + 4) & 0xF0000000) | (address << 2) and changes nothing else. pc + 4 is modulo 2^32, as the rule's pseudocode writes (decision D2). -/
def Obligations.JumpsWithinTheSegment : Prop :=
  (∀ w : Word, w &&& 0xFC000000#32 = 0x08000000#32 → decodeWord w = .ok (.j (addressField w))) ∧
  (∀ (address : BitVec 26) (s : State),
    exec (.j address) s =
      .next (State.mk (((s.pc + 4#32) &&& 0xF0000000#32) ||| (address.setWidth 32 <<< 2))
        s.halted s.trapKind s.regs s.mem s.params)) ∧
  (∀ (address : BitVec 26) (s : State), ∃ t, exec (.j address) s = .next t ∧
    t.pc.toNat = (s.pc + 4#32).toNat / 2 ^ 28 * 2 ^ 28 + address.toNat * 4 ∧ t.pc.toNat % 4 = 0)

/-- O26 (R111). HALT: every word from 0xFC000000 up decodes to it, and it sets the halted flag and nothing else, is no trap and reports nothing. -/
def Obligations.HaltStopsTheCore : Prop :=
  (∀ w : Word, w &&& 0xFC000000#32 = 0xFC000000#32 ↔ decodeWord w = .ok (.halt (addressField w))) ∧
  (∀ (b : BitVec 26) (s : State),
    exec (.halt b) s = .next (State.mk s.pc true s.trapKind s.regs s.mem s.params)) ∧
  (∀ s : State, s.Fetching → s.ifetch s.pc &&& 0xFC000000#32 = 0xFC000000#32 →
    stepReport s = none ∧
    ∀ n : Nat, runFor (n + 1) s =
      .next (State.mk s.pc true s.trapKind s.regs s.mem s.params))

/-- O27 (R121, R122, R124, R125). Applying an Effect writes its one register, its one word of memory, its jump target or nothing, and updates pc. Sums are modulo 2^32, as the rules' pseudocode writes (decision D2). -/
def Obligations.EffectsApplyAsDescribed : Prop :=
  ∀ s : State,
    (∀ (i : Fin 32) (v : Word), s.apply (.registerWrite i v) =
      State.mk (s.pc + 4#32) s.halted s.trapKind (s.regs.set i.val v) s.mem s.params) ∧
    (∀ a v : Word, a.toNat < s.memWords →
      s.apply (.memoryWrite a v) =
        State.mk (s.pc + 4#32) s.halted s.trapKind s.regs (Memory.write s.mem a.toNat v) s.params ∧
      (Memory.wf s.mem = true → Memory.read (s.apply (.memoryWrite a v)).mem a.toNat = v) ∧
      ∀ b : Nat, b ≠ a.toNat → Memory.read (s.apply (.memoryWrite a v)).mem b = Memory.read s.mem b) ∧
    (∀ address : BitVec 26, s.apply (.pcAdjust (.absolute26 address)) =
      State.mk (((s.pc + 4#32) &&& 0xF0000000#32) ||| ((address.setWidth 32 <<< 2) &&& 0x0FFFFFFF#32))
        s.halted s.trapKind s.regs s.mem s.params) ∧
    s.apply .noOp = State.mk (s.pc + 4#32) s.halted s.trapKind s.regs s.mem s.params

/-- O28 (40_step_fetch_classify_decode.md section 1). When the four bytes at pc decode to a well-formed instruction, a step is exec of it. -/
def Obligations.StepRunsTheDecodedInstruction : Prop :=
  ∀ (s : State) (i : Instr), s.Fetching →
    decode [s.imemByte s.pc.toNat, s.imemByte (s.pc.toNat + 1), s.imemByte (s.pc.toNat + 2),
      s.imemByte (s.pc.toNat + 3)] = .ok (i, []) →
    i.WellFormed → step s = exec i s

/-- O29 (40_step_fetch_classify_decode.md section 1, 60_exceptions.md section 2, 50_interfaces.md, notes/assumptions/8.md). A step is the hardware form's pipeline: find the activity in the order of the checks, then perform it. The place of the refusal among the checks is the model's: log entry 8. -/
def Obligations.StepIsThePipeline : Prop :=
  ∀ s : State, step s = (activity s).perform s

/-- O30 (R32). The fetched word is the four bytes at pc, the first the most significant, each read unsigned. -/
def Obligations.FetchIsBigEndian : Prop :=
  ∀ (s : State) (p : Word),
    (s.ifetch p).toNat =
      (s.imemByte p.toNat).toNat * 2 ^ 24 + (s.imemByte (p.toNat + 1)).toNat * 2 ^ 16 +
      (s.imemByte (p.toNat + 2)).toNat * 2 ^ 8 + (s.imemByte (p.toNat + 3)).toNat

/-- O31 (R78). A step, and any number of steps, of a Halted core answer the same state and report nothing, whatever pc is. -/
def Obligations.HaltedStepsChangeNothing : Prop :=
  ∀ s : State, s.halted = true →
    step s = .next s ∧ stepReport s = none ∧ ∀ n : Nat, runFor n s = .next s

/-- O32 (R141). A Running core whose pc is at or beyond IMEM_BYTES halts, changes nothing else the program can see, and reports (SEGFAULT, pc). A pc that is not a multiple of 4 is refused (OnlyMisalignedPcIsRefused). What the trap record holds is TrapEntryLatchesTheKind's (D10). -/
def Obligations.FetchPastTheEndTraps : Prop :=
  ∀ s : State, s.halted = false → s.pc.toNat % 4 = 0 → 4 * s.params.imemWords.val ≤ s.pc.toNat →
    stepReport s = some (.segfault, s.pc) ∧
    ∃ t, step s = .next t ∧ t.halted = true ∧ t.pc = s.pc ∧ t.regs = s.regs ∧ t.mem = s.mem ∧ t.params = s.params

/-- O33 (60_exceptions.md section 3, 92_eei_decisions.md D10, 92_eei_decisions.md D11). Taking a trap sets halted, latches the kind of the cause, and changes nothing else; the stopped core shows the report (kind, pc). The latch is the spec's decision D10, its codes D11. -/
def Obligations.TrapEntryLatchesTheKind : Prop :=
  (∀ (s : State) (c : TrapCause), activity s = .traps c →
    step s = .next (State.mk s.pc true (some c.kind) s.regs s.mem s.params) ∧
    stepReport s = some (c.kind, s.pc) ∧
    ∀ t, step s = .next t → t.latchedReport = stepReport s) ∧
  TrapCause.kind .fetchOutOfRange = .segfault ∧ TrapCause.kind .registerIndex = .segfault ∧
  TrapCause.kind .memoryAddress = .segfault ∧ TrapCause.kind .unsupportedFunct = .unkop ∧
  TrapCause.kind .unsupportedOpcode = .unkop ∧
  trapCode none = 0b00#2 ∧ trapCode (some .segfault) = 0b01#2 ∧ trapCode (some .unkop) = 0b10#2

/-- O34 (R127). A step applies the one Effect of its instruction whole, or nothing: only its destination register or only its stored word may change, never both. -/
def Obligations.StepIsAllOrNothing : Prop :=
  ∀ s t : State, step s = .next t →
    (t.halted = true → t.pc = s.pc ∧ t.regs = s.regs ∧ t.mem = s.mem) ∧
    (t.halted = false → ∃ i e, decodeWord (s.ifetch s.pc) = .ok i ∧ dispatchOf i s = some (.effect e) ∧ t = s.apply e) ∧
    (t.regs = s.regs ∨ t.mem = s.mem) ∧
    (∀ r : Fin 32, t.readReg r ≠ s.readReg r →
      ∃ i, decodeWord (s.ifetch s.pc) = .ok i ∧ i.writtenReg = some r.val) ∧
    (∀ b : Nat, Memory.read t.mem b ≠ Memory.read s.mem b →
      ∃ i a, decodeWord (s.ifetch s.pc) = .ok i ∧ storeAddress i s = some a ∧ b = a.toNat ∧ b < s.memWords)

/-- O35 (R128). The pc after a step is what the update policy's table says, row by row, for every state. Sums are modulo 2^32 (decision D2). -/
def Obligations.NextPcFollowsThePolicy : Prop :=
  ∀ s t : State, step s = .next t →
    t.pc =
      (if s.halted = true then s.pc
      else if s.imemBytes ≤ s.pc.toNat then s.pc
      else
        let w := s.ifetch s.pc
        let base := s.readReg (rsField w).toFin
        match decodeWord w with
        | .error _ => s.pc
        | .ok (.halt _) => s.pc
        | .ok (.beq _ _ imm) =>
          if base = s.readReg (rtField w).toFin then s.pc + 4#32 + (imm.signExtend 32 <<< 2) else s.pc + 4#32
        | .ok (.j address) => ((s.pc + 4#32) &&& 0xF0000000#32) ||| (address.setWidth 32 <<< 2)
        | .ok (.lw _ _ imm) => if s.memWords ≤ (base + imm.signExtend 32).toNat then s.pc else s.pc + 4#32
        | .ok (.sw _ _ imm) => if s.memWords ≤ (base + imm.signExtend 32).toNat then s.pc else s.pc + 4#32
        | .ok _ => s.pc + 4#32) ∧
    (s.pc.toNat % 4 = 0 → t.pc.toNat % 4 = 0)

/-- O36 (10_state.md section 2, 10_state.md section 3, 20_memory.md section 5, notes/assumptions/7.md). Every step from a state that meets the invariant leads to one that meets it. The canonical form in the invariant is the model's choice: log entry 7. -/
def Obligations.StepKeepsTheInvariant : Prop :=
  ∀ s : State, s.Inv →
    (∀ t, step s = .next t → t.Inv) ∧
    ∀ (rst stepEn : Bool) (t : State), clockEdge rst stepEn s = .next t → t.Inv

/-- O37 (40_step_fetch_classify_decode.md section 6, 93_implementation_defined.md Part 1, notes/assumptions/7.md). From any state that meets the invariant, a run of any number of steps answers a next state that meets it. The canonical form in the invariant is the model's choice: log entry 7. -/
def Obligations.RunsNeverStopInTheModel : Prop :=
  ∀ (n : Nat) (s : State), s.Inv →
    ∃ t : State, runFor n s = .next t ∧ t.Inv

/-- O38 (70_reset_and_hazards.md section 1, notes/assumptions/3.md, notes/assumptions/4.md, notes/assumptions/5.md, notes/assumptions/6.md, notes/assumptions/7.md). The reset machine, every machine booted with canonical memories, and any such machine after the reset event meet the invariant. The values of State.reset that the environment supplies are the model's choices, log entries 3 to 6; so is the canonical form, log entry 7. -/
def Obligations.ResetMeetsTheInvariant : Prop :=
  State.reset.Inv ∧
  (∀ (p : Params) (regs : Vector Word 32) (mem : Memory 32),
    Memory.wf mem = true → Memory.within mem p.memWords.val = true →
    Memory.wf p.imem = true → Memory.within p.imem (4 * p.imemWords.val) = true →
    (State.boot p regs mem).Inv) ∧
  (∀ s : State,
    Memory.wf s.mem = true → Memory.within s.mem s.memWords = true →
    Memory.wf s.params.imem = true → Memory.within s.params.imem s.imemBytes = true →
    s.applyReset.Inv)

/-- O39 (R161). At the first step pc is 0, the core is Running, the trap record is NONE, and registers, memory and program are what the environment supplied. -/
def Obligations.RunBeginsAtOffsetZero : Prop :=
  ∀ (p : Params) (regs : Vector Word 32) (mem : Memory 32),
    State.boot p regs mem = State.mk 0#32 false none regs mem p ∧
    trapCode (State.boot p regs mem).trapKind = 0b00#2

/-- O40 (notes/assumptions/3.md, notes/assumptions/4.md, notes/assumptions/5.md, notes/assumptions/6.md). The model's reset machine: registers zero, 32 words of zero data memory, no program. The model's choices: log entries 3 to 6. -/
def Obligations.ResetMachineHoldsTheLoggedValues : Prop :=
  State.reset.pc = 0#32 ∧ State.reset.halted = false ∧ State.reset.trapKind = none ∧
  (∀ r : Fin 32, State.reset.readReg r = 0#32) ∧ (∀ a : Nat, Memory.read State.reset.mem a = 0#32) ∧
  State.reset.memWords = 32 ∧ State.reset.imemBytes = 0

/-- O41 (70_reset_and_hazards.md section 1, 50_interfaces.md, 92_eei_decisions.md D8). A clock edge with rst = 1 sets pc, halted and trap record, whatever step_en is, and leaves registers, memory and program alone. The reset event is the spec's decision D8. -/
def Obligations.ResetEventKeepsTheArrays : Prop :=
  ∀ (stepEn : Bool) (s : State),
    clockEdge true stepEn s = .next (State.mk 0#32 false none s.regs s.mem s.params)

/-- O42 (50_interfaces.md, 92_eei_decisions.md D19, 92_eei_decisions.md D20). With rst = 0 a clock edge is one step when step_en = 1 and changes nothing when it is 0; a request while Halted has every enable low. The spec's decisions D19 and D20. -/
def Obligations.ClockEdgePerformsOneStep : Prop :=
  ∀ s : State,
    clockEdge false true s = step s ∧
    clockEdge false false s = .next s ∧
    (s.halted = true → ∀ stepEn : Bool, clockEdge false stepEn s = .next s ∧
      (ports false stepEn s).rfWe = false ∧ (ports false stepEn s).dmemWe = false ∧
      (ports false stepEn s).trapValid = false ∧ (ports false stepEn s).halted = true)

/-- O43 (50_interfaces.md, 44_effects_and_pc_update.md section 2, 92_eei_decisions.md D9, notes/assumptions/13.md). The register-file and data-memory write ports show exactly what the clock edge writes (with rst = 1, where they show nothing, by log entry 13). The port form is the spec's decision D9; that the enables are 0 while rst is 1 is DEDUCED, log entry 13. -/
def Obligations.WritePortsShowTheWrites : Prop :=
  ∀ (rst stepEn : Bool) (s t : State), clockEdge rst stepEn s = .next t →
    ((ports rst stepEn s).rfWe = true →
      ∃ (i : BitVec 5) (v : Word), (ports rst stepEn s).rfWaddr = some i ∧ (ports rst stepEn s).rfWdata = some v ∧
        t.regs = s.regs.set i.toFin.val v ∧ t.mem = s.mem) ∧
    ((ports rst stepEn s).rfWe = false → t.regs = s.regs) ∧
    ((ports rst stepEn s).dmemWe = true →
      ∃ a v : Word, (ports rst stepEn s).dmemAddr = some a ∧ (ports rst stepEn s).dmemWdata = some v ∧
        s.memInBounds a = true ∧ t.mem = Memory.write s.mem a.toNat v ∧ t.regs = s.regs) ∧
    ((ports rst stepEn s).dmemWe = false → t.mem = s.mem) ∧
    ¬ ((ports rst stepEn s).rfWe = true ∧ (ports rst stepEn s).dmemWe = true) ∧
    (ports rst stepEn s).imemAddr = s.pc ∧ (ports rst stepEn s).trapPc = s.pc

/-- O44 (50_interfaces.md, 60_exceptions.md section 3, 92_eei_decisions.md D10). trap_valid is 1 exactly in the cycle of a trapping step, with its kind; from the next edge on it is 0 and kind and pc stay shown. The spec's decisions D10 and D11. -/
def Obligations.TrapPulsesOnceThenLatches : Prop :=
  ∀ s : State,
    (∀ stepEn : Bool, (ports false stepEn s).trapValid = true ↔ stepEn = true ∧ (stepReport s).isSome = true) ∧
    ∀ (k : TrapKind) (p : Word), stepReport s = some (k, p) →
      p = s.pc ∧ (ports false true s).trapKind = trapCode (some k) ∧ (ports false true s).trapPc = p ∧
      ∃ t, step s = .next t ∧ ∀ stepEn : Bool,
        (ports false stepEn t).trapValid = false ∧ (ports false stepEn t).halted = true ∧
        (ports false stepEn t).trapKind = trapCode (some k) ∧ (ports false stepEn t).trapPc = p

/-- O45 (R43). No run of any length changes the instruction store or the capacities: the word fetched at every offset stays the same. -/
def Obligations.ProgramNeverChanges : Prop :=
  ∀ (n : Nat) (s t : State), runFor n s = .next t →
    t.params = s.params ∧ ∀ p : Word, t.ifetch p = s.ifetch p

/-- O46 (10_state.md section 3, 60_exceptions.md section 3, 92_eei_decisions.md D10). No step clears the halted flag or changes a recorded trap. The trap record is the spec's decision D10. -/
def Obligations.HaltedAndTrapRecordAreSticky : Prop :=
  ∀ s t : State, step s = .next t →
    (s.halted = true → t.halted = true) ∧
    (s.Inv → ∀ k, s.trapKind = some k → t.trapKind = some k)

/-- O47 (20_memory.md section 6, 70_reset_and_hazards.md section 3). A lw returns what the latest sw to its address stored, with any instruction in between that does not store there. -/
def Obligations.LoadReturnsTheLatestStore : Prop :=
  ∀ (s t u : State) (rt rs rd base : Fin 32) (imm imm' : BitVec 16) (i : Instr),
    Memory.wf s.mem = true →
    s.memInBounds (basePlusImm (s.readReg rs) imm) = true →
    exec (.sw rt.val rs.val imm) s = .next t →
    exec i t = .next u →
    storeAddress i t ≠ some (basePlusImm (s.readReg rs) imm) →
    basePlusImm (u.readReg base) imm' = basePlusImm (s.readReg rs) imm →
    ∃ v, exec (.lw rd.val base.val imm') u = .next v ∧ v.readReg rd = s.readReg rt

/-- O48 (10_state.md section 4, 95_test_vectors.md section 2.5). Register 0 keeps what is written to it, and a later instruction reads it back. -/
def Obligations.RegisterZeroIsOrdinary : Prop :=
  ∀ (s : State) (rs rt rd : Fin 32) (imm : BitVec 16) (shamt : BitVec 5),
    ∃ t u, exec (.addiu 0 rs.val imm) s = .next t ∧
      t.readReg 0 = s.readReg rs + sext16 imm ∧
      exec (.addu rd.val 0 rt.val shamt) t = .next u ∧
      u.readReg rd = (s.readReg rs + sext16 imm) + t.readReg rt

/-- O49 (20_memory.md section 4, notes/assumptions/6.md, notes/assumptions/7.md). Canonical memories that read alike are equal data, writing back what was read restores one, and every finite content has one. The canonical form is the model's choice: log entry 7; what an unlisted cell reads as: log entry 6. -/
def Obligations.CanonicalMemoriesAreDetermined : Prop :=
  (∀ (w : Nat) (m m' : Memory w), Memory.wf m = true → Memory.wf m' = true →
    (∀ a : Nat, Memory.read m a = Memory.read m' a) → m = m') ∧
  (∀ (w : Nat) (m : Memory w) (a : Nat) (v : BitVec w), Memory.wf m = true →
    Memory.write (Memory.write m a v) a (Memory.read m a) = m) ∧
  (∀ (w bound : Nat) (content : Nat → BitVec w), ∃ m : Memory w,
    Memory.wf m = true ∧ Memory.within m bound = true ∧
    (∀ a : Nat, a < bound → Memory.read m a = content a) ∧
    ∀ a : Nat, bound ≤ a → Memory.read m a = Config.unlistedCell w)

/-- O50 (50_interfaces.md, 10_state.md section 3, 92_eei_decisions.md D10). No run of any length depends on the trap record: two states that differ only in it run alike in pc, halted, registers, memory and program. The trap record is the spec's decision D10. -/
def Obligations.TrapRecordIsNeverRead : Prop :=
  ∀ (n : Nat) (s : State) (k : Option TrapKind),
    (∀ t : State, runFor n s = .next t →
      ∃ t' : State, runFor n (State.mk s.pc s.halted k s.regs s.mem s.params) = .next t' ∧
        t'.pc = t.pc ∧ t'.halted = t.halted ∧ t'.regs = t.regs ∧ t'.mem = t.mem ∧ t'.params = t.params) ∧
    (∀ r : Refusal, runFor n s = .refused r →
      runFor n (State.mk s.pc s.halted k s.regs s.mem s.params) = .refused r)

/-- O51 (30_encoding.md section 2, 92_eei_decisions.md D14, 92_eei_decisions.md D15). R-shape words that differ only in shamt, and HALT words that differ only below the opcode, run alike. The spec's decisions D14 and D15. -/
def Obligations.IgnoredBitsDoNotMatter : Prop :=
  ∀ (w w' : Word) (s : State),
    (opcodeField w = 0x00#6 → opcodeField w' = 0x00#6 → rsField w = rsField w' → rtField w = rtField w' →
      rdField w = rdField w' → functField w = functField w' → runWord w s = runWord w' s) ∧
    (opcodeField w = 0x3F#6 → opcodeField w' = 0x3F#6 → runWord w s = runWord w' s)

/-- O52 (60_exceptions.md section 3, 92_eei_decisions.md D10). A Running core without a trap record stops with record NONE exactly when the step executed HALT, and such a stop is not reported. The trap record is the spec's decision D10. -/
def Obligations.HaltIsNotATrap : Prop :=
  ∀ s t : State, s.halted = false → s.trapKind = none → step s = .next t → t.halted = true →
    (t.trapKind = none ↔
      s.pc.toNat < s.imemBytes ∧ ∃ b, decodeWord (s.ifetch s.pc) = .ok (.halt b)) ∧
    (t.trapKind = none ↔ stepReport s = none)

/-- O53 (20_memory.md section 3, 93_implementation_defined.md U11, notes/assumptions/1.md, notes/assumptions/8.md). A step is refused exactly from a Running state whose pc is not a multiple of 4; no step and no exec faults. That the refusal comes before the fetch check is DEDUCED, log entry 8; that a trap is a next state and no fault is DEDUCED, log entry 1. -/
def Obligations.OnlyMisalignedPcIsRefused : Prop :=
  (∀ (s : State) (r : Refusal),
    step s = .refused r ↔ s.halted = false ∧ s.pc.toNat % 4 ≠ 0 ∧ r = .misalignedPc) ∧
  (∀ s : State, s.halted = true ∨ s.pc.toNat % 4 = 0 → ∃ t, step s = .next t) ∧
  (∀ (s : State) (f : Fault), step s ≠ .fault f) ∧
  (∀ (i : Instr) (s : State) (f : Fault), exec i s ≠ .fault f)

/-- O54 (40_step_fetch_classify_decode.md section 1, 60_exceptions.md section 3, 44_effects_and_pc_update.md section 1). Every instruction with any operands at any state answers a next state: it is HALT and halts, takes a trap, or applies its Effect. -/
def Obligations.EveryInstructionAnswersANextState : Prop :=
  ∀ (i : Instr) (s : State), ∃ t, exec i s = .next t ∧
    ((i.op = .halt ∧ t = State.mk s.pc true s.trapKind s.regs s.mem s.params) ∨
      (∃ c, dispatchOf i s = some (.raise c) ∧ t = State.mk s.pc true (some c.kind) s.regs s.mem s.params) ∨
      (∃ e, dispatchOf i s = some (.effect e) ∧ t = s.apply e ∧ t.halted = s.halted ∧ t.trapKind = s.trapKind))

/-- O55 (70_reset_and_hazards.md section 2, notes/assumptions/3.md). A word loaded where pc points is the word the next step runs, and loading changes nothing but the program. The loading is the model's own: log entry 3. -/
def Obligations.LoadedWordRunsNext : Prop :=
  ∀ (s : State) (w : Nat), s.halted = false → s.pc.toNat % 4 = 0 → Memory.wf s.params.imem = true → w < 2 ^ 32 →
    step (s.withFetchWord 32 w) = runWord (BitVec.ofNat 32 w) (s.withFetchWord 32 w) ∧
    (s.withFetchWord 32 w).pc = s.pc ∧ (s.withFetchWord 32 w).halted = s.halted ∧
    (s.withFetchWord 32 w).trapKind = s.trapKind ∧ (s.withFetchWord 32 w).regs = s.regs ∧
    (s.withFetchWord 32 w).mem = s.mem ∧ (s.withFetchWord 32 w).memWords = s.memWords ∧
    ∀ a : Nat, (a < s.pc.toNat ∨ s.pc.toNat + 4 ≤ a) →
      (s.withFetchWord 32 w).imemByte a = s.imemByte a

/-- O56 (40_step_fetch_classify_decode.md section 6, 95_test_vectors.md section 2.6). beq r, r, -1, for any register r, branches to itself: a run of any number of steps stays at the same Running state. -/
def Obligations.SelfBranchNeverHalts : Prop :=
  ∀ (s : State) (r : Nat), s.Fetching → decodeWord (s.ifetch s.pc) = .ok (.beq r r 0xFFFF#16) →
    ∀ n : Nat, runFor n s = .next s

/-- O57 (50_interfaces.md, 44_effects_and_pc_update.md section 2, 92_eei_decisions.md D9, notes/assumptions/14.md). rf_raddr, rf_waddr, dmem_addr and dmem_wdata show the fields, address and x[rt] of the fetched word, whether or not anything is written. The port form is the spec's decision D9; in which cycles a port has a value: log entry 14. -/
def Obligations.AddressPortsFollowTheFetchedWord : Prop :=
  ∀ (rst stepEn : Bool) (s : State), s.pc.toNat % 4 = 0 → s.pc.toNat < s.imemBytes →
    (opcodeField (s.ifetch s.pc) = 0x00#6 →
      (ports rst stepEn s).rfWaddr = some (rdField (s.ifetch s.pc))) ∧
    (opcodeField (s.ifetch s.pc) = 0x09#6 ∨ opcodeField (s.ifetch s.pc) = 0x23#6 →
      (ports rst stepEn s).rfWaddr = some (rtField (s.ifetch s.pc))) ∧
    (opcodeField (s.ifetch s.pc) ∉ [0x02#6, 0x3F#6] →
      (ports rst stepEn s).rfRaddr = some (rsField (s.ifetch s.pc), rtField (s.ifetch s.pc)) ∧
      (ports rst stepEn s).dmemWdata = some (s.readReg (rtField (s.ifetch s.pc)).toFin)) ∧
    (opcodeField (s.ifetch s.pc) = 0x23#6 ∨ opcodeField (s.ifetch s.pc) = 0x2B#6 →
      (ports rst stepEn s).dmemAddr =
        some (s.readReg (rsField (s.ifetch s.pc)).toFin + (immField (s.ifetch s.pc)).signExtend 32))
end

