-- ==== Sys2Proof/Laws/Decode.lean ====
section
/-! SUPPORT. The laws of words and fields: what each field of a packed word is, what the classifier answers for it, and a
word's fixed bits as fields. -/

namespace Sys2Proof

/-! ### Fields of packed words -/

section R
variable (o : BitVec 6) (rs rt rd sh : BitVec 5) (f : BitVec 6)

@[simp] theorem opcodeField_packR : opcodeField (packR o rs rt rd sh f) = o := by
  apply BitVec.eq_of_getLsbD_eq
  intro i hi
  simp only [opcodeField, packR, BitVec.getLsbD_extractLsb', BitVec.getLsbD_append]
  interval_cases i <;> rfl

@[simp] theorem rsField_packR : rsField (packR o rs rt rd sh f) = rs := by
  apply BitVec.eq_of_getLsbD_eq
  intro i hi
  simp only [rsField, packR, BitVec.getLsbD_extractLsb', BitVec.getLsbD_append]
  interval_cases i <;> rfl

@[simp] theorem rtField_packR : rtField (packR o rs rt rd sh f) = rt := by
  apply BitVec.eq_of_getLsbD_eq
  intro i hi
  simp only [rtField, packR, BitVec.getLsbD_extractLsb', BitVec.getLsbD_append]
  interval_cases i <;> rfl

@[simp] theorem rdField_packR : rdField (packR o rs rt rd sh f) = rd := by
  apply BitVec.eq_of_getLsbD_eq
  intro i hi
  simp only [rdField, packR, BitVec.getLsbD_extractLsb', BitVec.getLsbD_append]
  interval_cases i <;> rfl

@[simp] theorem shamtField_packR : shamtField (packR o rs rt rd sh f) = sh := by
  apply BitVec.eq_of_getLsbD_eq
  intro i hi
  simp only [shamtField, packR, BitVec.getLsbD_extractLsb', BitVec.getLsbD_append]
  interval_cases i <;> rfl

@[simp] theorem functField_packR : functField (packR o rs rt rd sh f) = f := by
  apply BitVec.eq_of_getLsbD_eq
  intro i hi
  simp only [functField, packR, BitVec.getLsbD_extractLsb', BitVec.getLsbD_append]
  interval_cases i <;> rfl

end R

section I
variable (o : BitVec 6) (rs rt : BitVec 5) (imm : BitVec 16)

@[simp] theorem opcodeField_packI : opcodeField (packI o rs rt imm) = o := by
  apply BitVec.eq_of_getLsbD_eq
  intro i hi
  simp only [opcodeField, packI, BitVec.getLsbD_extractLsb', BitVec.getLsbD_append]
  interval_cases i <;> rfl

@[simp] theorem rsField_packI : rsField (packI o rs rt imm) = rs := by
  apply BitVec.eq_of_getLsbD_eq
  intro i hi
  simp only [rsField, packI, BitVec.getLsbD_extractLsb', BitVec.getLsbD_append]
  interval_cases i <;> rfl

@[simp] theorem rtField_packI : rtField (packI o rs rt imm) = rt := by
  apply BitVec.eq_of_getLsbD_eq
  intro i hi
  simp only [rtField, packI, BitVec.getLsbD_extractLsb', BitVec.getLsbD_append]
  interval_cases i <;> rfl

@[simp] theorem immField_packI : immField (packI o rs rt imm) = imm := by
  apply BitVec.eq_of_getLsbD_eq
  intro i hi
  simp only [immField, packI, BitVec.getLsbD_extractLsb', BitVec.getLsbD_append]
  interval_cases i <;> rfl

end I

@[simp] theorem opcodeField_packJ (o : BitVec 6) (a : BitVec 26) : opcodeField (packJ o a) = o := by
  apply BitVec.eq_of_getLsbD_eq
  intro i hi
  simp only [opcodeField, packJ, BitVec.getLsbD_extractLsb', BitVec.getLsbD_append]
  interval_cases i <;> rfl

@[simp] theorem addressField_packJ (o : BitVec 6) (a : BitVec 26) : addressField (packJ o a) = a := by
  apply BitVec.eq_of_getLsbD_eq
  intro i hi
  simp only [addressField, packJ, BitVec.getLsbD_extractLsb', BitVec.getLsbD_append]
  interval_cases i <;> rfl

/-! ### The classifier sees the opcode -/

/-- The top 6 bits of the first byte are the opcode (R73, C7). -/
theorem firstByte_shift (w : Word) : firstByte w >>> 2 = (opcodeField w).setWidth 8 := by
  apply BitVec.eq_of_getLsbD_eq
  intro i hi
  simp only [firstByte, opcodeField, BitVec.getLsbD_ushiftRight, BitVec.getLsbD_extractLsb', BitVec.getLsbD_setWidth, hi,
    decide_true, Bool.true_and]
  by_cases h : i < 6
  · have : 2 + i < 8 := by omega
    simp [h, this, show 24 + (2 + i) = 26 + i by omega]
  · have : ¬ 2 + i < 8 := by omega
    simp [h, this]

/-- A 6-bit opcode read at 8 bits is a small constant exactly when it is that constant. -/
theorem opcode_setWidth_eq (o c : BitVec 6) : o.setWidth 8 = c.setWidth 8 ↔ o = c := by
  constructor
  · intro h
    have := congrArg (BitVec.setWidth 6) h
    simpa using this
  · rintro rfl; rfl

/-- The classifier on a word's first byte, by its opcode (R57, R73). -/
theorem classify_firstByte (w : Word) :
    classify (firstByte w) =
      if opcodeField w = 0x00#6 then .r
      else if opcodeField w = 0x02#6 then .j
      else if opcodeField w = 0x3F#6 then .halt
      else .i := by
  have h0 := opcode_setWidth_eq (opcodeField w) 0x00#6
  have h2 := opcode_setWidth_eq (opcodeField w) 0x02#6
  have h3 := opcode_setWidth_eq (opcodeField w) 0x3F#6
  simp only [show (0x00#6).setWidth 8 = 0x00#8 from rfl, show (0x02#6).setWidth 8 = 0x02#8 from rfl,
    show (0x3F#6).setWidth 8 = 0x3F#8 from rfl] at h0 h2 h3
  simp only [classify, firstByte_shift, h0, h2, h3]

/-! ### Decoding by opcode -/

/-- A word of opcode 0x00 is selected on its funct. -/
theorem decodeWord_rShape {w : Word} (h : opcodeField w = 0x00#6) :
    decodeWord w =
      select (.r 0x00#6 (rsField w) (rtField w) (rdField w) (shamtField w) (functField w)) := by
  simp [decodeWord, classify_firstByte, decodeFields, h]

/-- A word of opcode 0x02 is a jump. -/
theorem decodeWord_jShape {w : Word} (h : opcodeField w = 0x02#6) : decodeWord w = .ok (.j (addressField w)) := by
  simp [decodeWord, classify_firstByte, decodeFields, select, h]

/-- A word of opcode 0x3F is HALT. -/
theorem decodeWord_haltShape {w : Word} (h : opcodeField w = 0x3F#6) : decodeWord w = .ok (.halt (addressField w)) := by
  simp [decodeWord, classify_firstByte, decodeFields, h]

/-- A word of any other opcode is selected as I-shape. -/
theorem decodeWord_iShape {w : Word} (h0 : opcodeField w ≠ 0x00#6) (h2 : opcodeField w ≠ 0x02#6)
    (h3 : opcodeField w ≠ 0x3F#6) :
    decodeWord w = select (.i (opcodeField w) (rsField w) (rtField w) (immField w)) := by
  simp [decodeWord, classify_firstByte, decodeFields, h0, h2, h3]

/-- The bytes of a word assemble to it. -/
@[simp] theorem assemble_bytes (w : Word) :
    assemble (w.extractLsb' 24 8) (w.extractLsb' 16 8) (w.extractLsb' 8 8) (w.extractLsb' 0 8) = w := by
  apply BitVec.eq_of_getLsbD_eq
  intro i hi
  simp only [assemble, BitVec.getLsbD_append, BitVec.getLsbD_extractLsb']
  split
  case isTrue h => simp [h]
  case isFalse h =>
    split
    case isTrue h' => simp [h', show 8 + (i - 8) = i by omega]
    case isFalse h' =>
      split
      case isTrue h'' => simp [h'', show 16 + (i - 8 - 8) = i by omega]
      case isFalse h'' => simp [show i - 8 - 8 - 8 < 8 by omega, show 24 + (i - 8 - 8 - 8) = i by omega]

/-- The bytes of a word decode as the word does, whatever follows them. -/
theorem decode_wordBytes (w : Word) (rest : List Byte) :
    decode (wordBytes w ++ rest) =
      match decodeWord w with
      | .ok i => .ok (i, rest)
      | .error c => .error (.unkop c) := by
  cases h : decodeWord w <;> simp [wordBytes, decode, assemble_bytes, h]

/-! ### Fixed bits as fields -/

/-- A word is its opcode and its low 26 bits. -/
theorem word_eq_packJ (w : Word) : w = packJ (opcodeField w) (addressField w) := by
  apply BitVec.eq_of_getLsbD_eq
  intro i hi
  simp only [packJ, opcodeField, addressField, BitVec.getLsbD_append, BitVec.getLsbD_extractLsb']
  split
  case isTrue h => simp [h]
  case isFalse h => simp [show i - 26 < 6 by omega, show 26 + (i - 26) = i by omega]

/-- Two packed words are equal exactly when their fields are. -/
theorem packJ_inj {o o' : BitVec 6} {a a' : BitVec 26} : packJ o a = packJ o' a' ↔ o = o' ∧ a = a' := by
  constructor
  · intro h
    exact ⟨by simpa using congrArg opcodeField h, by simpa using congrArg addressField h⟩
  · rintro ⟨rfl, rfl⟩; rfl

/-- The opcode mask keeps the opcode and clears the rest. -/
theorem and_opcodeMask (w : Word) : w &&& 0xFC000000#32 = packJ (opcodeField w) 0#26 := by
  apply BitVec.eq_of_getLsbD_eq
  intro i hi
  simp only [packJ, opcodeField, BitVec.getLsbD_and, BitVec.getLsbD_append, BitVec.getLsbD_extractLsb']
  interval_cases i <;> simp

/-- A word has a row's opcode bits exactly when its opcode field is that opcode. -/
theorem and_opcodeMask_eq (w : Word) (o : BitVec 6) :
    w &&& 0xFC000000#32 = packJ o 0#26 ↔ opcodeField w = o := by
  rw [and_opcodeMask, packJ_inj]
  simp

end Sys2Proof
end

