-- ==== Sys2Proof/Laws/Memory.lean ====
section
/-! SUPPORT. The laws of memory cells: read after write, and that every operation keeps the canonical form. -/

namespace Sys2Proof.Machine

variable {w : Nat}

@[simp] theorem Memory.read_nil (a : Nat) : Memory.read ([] : Memory w) a = Config.unlistedCell w := rfl

theorem Memory.read_cons (k : Nat) (v : BitVec w) (rest : Memory w) (a : Nat) :
    Memory.read ((k, v) :: rest) a = if k = a then v else Memory.read rest a := rfl

/-- An address below every listed one reads as unlisted. -/
theorem Memory.read_below {m : Memory w} {a : Nat} (h : ∀ c ∈ m, a < c.1) :
    Memory.read m a = Config.unlistedCell w := by
  induction m with
  | nil => rfl
  | cons c rest ih =>
    obtain ⟨k, v⟩ := c
    have hk : a < k := h (k, v) (by simp)
    rw [Memory.read_cons, if_neg (by omega)]
    exact ih fun c hc => h c (by simp [hc])

/-- An address at or above a bound on every listed one reads as unlisted. -/
theorem Memory.read_outside {m : Memory w} {bound a : Nat} (h : Memory.within m bound = true) (ha : bound ≤ a) :
    Memory.read m a = Config.unlistedCell w := by
  induction m with
  | nil => rfl
  | cons c rest ih =>
    obtain ⟨k, v⟩ := c
    simp only [Memory.within, List.all_cons, Bool.and_eq_true, decide_eq_true_eq] at h
    rw [Memory.read_cons, if_neg (by omega)]
    exact ih h.2

/-- What the canonical form says of a nonempty memory. -/
theorem Memory.wf_cons (k : Nat) (v : BitVec w) (rest : Memory w) :
    Memory.wf ((k, v) :: rest) = true ↔
      v ≠ Config.unlistedCell w ∧ (∀ c ∈ rest, k < c.1) ∧ Memory.wf rest = true := by
  simp [Memory.wf, and_assoc]

/-- A cell of a written memory is the new one or an old one. -/
theorem Memory.mem_write {m : Memory w} {a : Nat} {v : BitVec w} {c : Nat × BitVec w}
    (h : c ∈ Memory.write m a v) : c = (a, v) ∨ c ∈ m := by
  induction m with
  | nil =>
    simp only [Memory.write] at h
    split at h <;> simp_all
  | cons d rest ih =>
    obtain ⟨k, u⟩ := d
    simp only [Memory.write] at h
    split at h
    · split at h
      · exact .inr h
      · exact (List.mem_cons.mp h).imp id id
    · split at h
      · split at h
        · exact .inr (List.mem_cons_of_mem _ h)
        · exact (List.mem_cons.mp h).imp id (List.mem_cons_of_mem _)
      · rcases List.mem_cons.mp h with h | h
        · exact .inr (by simp [h])
        · exact (ih h).imp id (List.mem_cons_of_mem _)

/-- A write keeps the canonical form. -/
theorem Memory.write_wf {m : Memory w} (h : Memory.wf m = true) (a : Nat) (v : BitVec w) :
    Memory.wf (Memory.write m a v) = true := by
  induction m with
  | nil =>
    simp only [Memory.write]
    split <;> simp_all [Memory.wf]
  | cons d rest ih =>
    obtain ⟨k, u⟩ := d
    obtain ⟨hu, hk, hr⟩ := (Memory.wf_cons k u rest).mp h
    simp only [Memory.write]
    split
    case isTrue hak =>
      split
      · exact h
      case isFalse hv =>
        refine (Memory.wf_cons a v _).mpr ⟨hv, fun c hc => ?_, h⟩
        rcases List.mem_cons.mp hc with rfl | hc
        · exact hak
        · exact Nat.lt_trans hak (hk c hc)
    case isFalse hak =>
      split
      case isTrue hak' =>
        subst hak'
        split
        · exact hr
        case isFalse hv => exact (Memory.wf_cons _ v _).mpr ⟨hv, hk, hr⟩
      case isFalse hne =>
        refine (Memory.wf_cons k u _).mpr ⟨hu, fun c hc => ?_, ih hr⟩
        rcases Memory.mem_write hc with rfl | hc
        · exact Nat.lt_of_le_of_ne (Nat.le_of_not_lt hak) (fun e => hne e.symm)
        · exact hk c hc

/-- A write inside a bound keeps every cell inside it. -/
theorem Memory.write_within {m : Memory w} {bound a : Nat} (h : Memory.within m bound = true) (ha : a < bound)
    (v : BitVec w) : Memory.within (Memory.write m a v) bound = true := by
  simp only [Memory.within, List.all_eq_true, decide_eq_true_eq] at h ⊢
  intro c hc
  rcases Memory.mem_write hc with rfl | hc
  · exact ha
  · exact h c hc

/-- A larger bound holds too. -/
theorem Memory.within_mono {m : Memory w} {b b' : Nat} (h : Memory.within m b = true) (hb : b ≤ b') :
    Memory.within m b' = true := by
  simp only [Memory.within, List.all_eq_true, decide_eq_true_eq] at h ⊢
  exact fun c hc => Nat.lt_of_lt_of_le (h c hc) hb

/-- A read after a write to the same address gives the value written. -/
theorem Memory.read_write_same {m : Memory w} (h : Memory.wf m = true) (a : Nat) (v : BitVec w) :
    Memory.read (Memory.write m a v) a = v := by
  induction m with
  | nil =>
    simp only [Memory.write]
    split <;> simp_all [Memory.read_cons]
  | cons d rest ih =>
    obtain ⟨k, u⟩ := d
    obtain ⟨-, hk, hr⟩ := (Memory.wf_cons k u rest).mp h
    simp only [Memory.write]
    split
    case isTrue hak =>
      split
      case isTrue hv =>
        rw [hv]
        refine Memory.read_below fun c hc => ?_
        rcases List.mem_cons.mp hc with rfl | hc
        · exact hak
        · exact Nat.lt_trans hak (hk c hc)
      · simp [Memory.read_cons]
    case isFalse hak =>
      split
      case isTrue hak' =>
        subst hak'
        split
        case isTrue hv => rw [hv]; exact Memory.read_below hk
        · simp [Memory.read_cons]
      case isFalse hne =>
        rw [Memory.read_cons, if_neg (fun e => hne e.symm)]
        exact ih hr

/-- A write leaves every other address alone, in any memory. -/
theorem Memory.read_write_other (m : Memory w) {a b : Nat} (h : b ≠ a) (v : BitVec w) :
    Memory.read (Memory.write m a v) b = Memory.read m b := by
  have h' : a ≠ b := fun e => h e.symm
  induction m with
  | nil =>
    simp only [Memory.write]
    split <;> simp [Memory.read_cons, h']
  | cons d rest ih =>
    obtain ⟨k, u⟩ := d
    simp only [Memory.write]
    split
    · split <;> simp [Memory.read_cons, h']
    · split
      case isTrue hak => subst hak; split <;> simp [Memory.read_cons, h']
      · simp [Memory.read_cons, ih]

/-- Writing a list of bytes keeps the canonical form. -/
theorem Memory.writeBytes_wf {m : Memory 8} (h : Memory.wf m = true) (a : Nat) (bs : List Byte) :
    Memory.wf (Memory.writeBytes m a bs) = true := by
  induction bs generalizing m a with
  | nil => exact h
  | cons b bs ih => exact ih (Memory.write_wf h a b) (a + 1)

/-- Writing a list of bytes inside a bound keeps every cell inside it. -/
theorem Memory.writeBytes_within {m : Memory 8} {bound : Nat} (h : Memory.within m bound = true) (a : Nat)
    (bs : List Byte) (hb : a + bs.length ≤ bound) : Memory.within (Memory.writeBytes m a bs) bound = true := by
  induction bs generalizing m a with
  | nil => exact h
  | cons b bs ih =>
    simp only [List.length_cons] at hb
    exact ih (Memory.write_within h (by omega) b) (a + 1) (by omega)

/-- Reset memory, data and program, is in canonical form and lists nothing outside its space. -/
theorem State.reset_memory_wf :
    Memory.wf State.reset.mem = true ∧ Memory.within State.reset.mem State.reset.memWords = true ∧
    Memory.wf State.reset.params.imem = true ∧
    Memory.within State.reset.params.imem State.reset.imemBytes = true := by decide

/-- `MemWrite` keeps the canonical form. -/
theorem State.memWrite_wf {s : State} (h : Memory.wf s.mem = true) (addr v : Word) :
    Memory.wf (s.memWrite addr v).mem = true := Memory.write_wf h addr.toNat v

/-- A write in bounds lists nothing outside the data space. -/
theorem State.memWrite_within {s : State} (h : Memory.within s.mem s.memWords = true) {addr : Word}
    (ha : s.memInBounds addr = true) (v : Word) :
    Memory.within (s.memWrite addr v).mem (s.memWrite addr v).memWords = true :=
  Memory.write_within h (of_decide_eq_true ha) v

/-- `MemRead` after `MemWrite` at the same index gives the value written (R42). -/
theorem State.memRead_memWrite_same {s : State} (h : Memory.wf s.mem = true) (addr v : Word) :
    (s.memWrite addr v).memRead addr = v := Memory.read_write_same h addr.toNat v

/-- `MemWrite` changes no other word (R36). -/
theorem State.memRead_memWrite_other (s : State) {a b : Word} (h : b ≠ a) (v : Word) :
    (s.memWrite a v).memRead b = s.memRead b :=
  Memory.read_write_other s.mem (fun e => h (BitVec.eq_of_toNat_eq e)) v

end Sys2Proof.Machine
end

