-- ==== Sys2Proof/Laws/Operands.lean ====
section
/-! SUPPORT. One lemma per operand form: the index check, the alignment of the pc values, the branch condition. -/

namespace Sys2Proof.Machine

/-- An index in 0..31 passes the check. -/
theorem regIndex_of_lt {r : Nat} (h : r < 32) : regIndex r = some ⟨r, h⟩ := dif_pos h

/-- A register index passes the check as itself. -/
@[simp] theorem regIndex_val (r : Fin 32) : regIndex r.val = some r := regIndex_of_lt r.isLt

/-- An index of 32 or more does not pass. -/
theorem regIndex_of_ge {r : Nat} (h : 32 ≤ r) : regIndex r = none := dif_neg (Nat.not_lt.mpr h)

/-- What passes is the index itself. -/
theorem regIndex_eq_some {r : Nat} {i : Fin 32} (h : regIndex r = some i) : i.val = r := by
  unfold regIndex at h
  split at h
  · exact (congrArg Fin.val (Option.some.inj h)).symm
  · exact absurd h (by simp)

/-- `beq`'s test is equality of the patterns (R102). -/
theorem branchCondition_iff (rs rt : Word) : branchCondition rs rt = true ↔ rt = rs := by
  simp only [branchCondition, beq_iff_eq]
  constructor
  · intro h; bv_omega
  · rintro rfl; simp

/-- `pc + 4` keeps the alignment (R13). -/
theorem nextPc_aligned {pc : Word} (h : pc.toNat % 4 = 0) : (nextPc pc).toNat % 4 = 0 := by
  simp only [nextPc, BitVec.toNat_add, BitVec.toNat_ofNat]
  omega

/-- A branch target is a multiple of 4 where `pc` is (R102, R123). -/
theorem branchTarget_aligned {pc : Word} (h : pc.toNat % 4 = 0) (operand : Word) :
    (branchTarget pc operand).toNat % 4 = 0 := by
  have := nextPc_aligned h
  simp only [branchTarget, BitVec.toNat_add, BitVec.toNat_shiftLeft, Nat.shiftLeft_eq]
  omega

/-- A number whose two low bits are clear is a multiple of 4. -/
theorem toNat_mod_four_of_low_bits {x : Word} (h0 : x.getLsbD 0 = false) (h1 : x.getLsbD 1 = false) :
    x.toNat % 4 = 0 := by
  simp only [BitVec.getLsbD, Nat.testBit, Nat.shiftRight_zero, Nat.shiftRight_succ, Nat.one_and_eq_mod_two,
    bne_eq_false_iff_eq] at h0 h1
  omega

/-- A jump target is a multiple of 4, whatever `pc` is (R110, R124). -/
theorem jumpTarget_aligned (pc : Word) (address : BitVec 26) : (jumpTarget pc address).toNat % 4 = 0 := by
  apply toNat_mod_four_of_low_bits <;> simp [jumpTarget]

/-- Every PC effect keeps the alignment (R13). -/
theorem PcAdjust.target_aligned {pc : Word} (h : pc.toNat % 4 = 0) (a : PcAdjust) :
    (a.target pc).toNat % 4 = 0 := by
  cases a with
  | relative16 operand => exact branchTarget_aligned h operand
  | absolute26 address => exact jumpTarget_aligned pc address

end Sys2Proof.Machine
end

