-- ==== Sys2Proof/Laws/State.lean ====
section
/-! SUPPORT. One lemma per field of `State` per update of it, so that no proof unfolds a record update. -/

namespace Sys2Proof.Machine

variable (s : State)

/-! `writeReg` -/

@[simp] theorem State.writeReg_pc (i : Fin 32) (v : Word) : (s.writeReg i v).pc = s.pc := rfl
@[simp] theorem State.writeReg_halted (i : Fin 32) (v : Word) : (s.writeReg i v).halted = s.halted := rfl
@[simp] theorem State.writeReg_trapKind (i : Fin 32) (v : Word) : (s.writeReg i v).trapKind = s.trapKind := rfl
@[simp] theorem State.writeReg_regs (i : Fin 32) (v : Word) : (s.writeReg i v).regs = s.regs.set i.val v := rfl
@[simp] theorem State.writeReg_mem (i : Fin 32) (v : Word) : (s.writeReg i v).mem = s.mem := rfl
@[simp] theorem State.writeReg_params (i : Fin 32) (v : Word) : (s.writeReg i v).params = s.params := rfl

/-! `memWrite` -/

@[simp] theorem State.memWrite_pc (addr v : Word) : (s.memWrite addr v).pc = s.pc := rfl
@[simp] theorem State.memWrite_halted (addr v : Word) : (s.memWrite addr v).halted = s.halted := rfl
@[simp] theorem State.memWrite_trapKind (addr v : Word) : (s.memWrite addr v).trapKind = s.trapKind := rfl
@[simp] theorem State.memWrite_regs (addr v : Word) : (s.memWrite addr v).regs = s.regs := rfl
@[simp] theorem State.memWrite_mem (addr v : Word) : (s.memWrite addr v).mem = Memory.write s.mem addr.toNat v := rfl
@[simp] theorem State.memWrite_params (addr v : Word) : (s.memWrite addr v).params = s.params := rfl

/-! `halt` -/

@[simp] theorem State.halt_pc : (s.halt).pc = s.pc := rfl
@[simp] theorem State.halt_halted : (s.halt).halted = true := rfl
@[simp] theorem State.halt_trapKind : (s.halt).trapKind = s.trapKind := rfl
@[simp] theorem State.halt_regs : (s.halt).regs = s.regs := rfl
@[simp] theorem State.halt_mem : (s.halt).mem = s.mem := rfl
@[simp] theorem State.halt_params : (s.halt).params = s.params := rfl

/-! `takeTrap` -/

@[simp] theorem State.takeTrap_pc (c : TrapCause) : (s.takeTrap c).pc = s.pc := rfl
@[simp] theorem State.takeTrap_halted (c : TrapCause) : (s.takeTrap c).halted = true := rfl
@[simp] theorem State.takeTrap_trapKind (c : TrapCause) : (s.takeTrap c).trapKind = some c.kind := rfl
@[simp] theorem State.takeTrap_regs (c : TrapCause) : (s.takeTrap c).regs = s.regs := rfl
@[simp] theorem State.takeTrap_mem (c : TrapCause) : (s.takeTrap c).mem = s.mem := rfl
@[simp] theorem State.takeTrap_params (c : TrapCause) : (s.takeTrap c).params = s.params := rfl

/-! `applyReset` -/

@[simp] theorem State.applyReset_pc : (s.applyReset).pc = 0#32 := rfl
@[simp] theorem State.applyReset_halted : (s.applyReset).halted = false := rfl
@[simp] theorem State.applyReset_trapKind : (s.applyReset).trapKind = none := rfl
@[simp] theorem State.applyReset_regs : (s.applyReset).regs = s.regs := rfl
@[simp] theorem State.applyReset_mem : (s.applyReset).mem = s.mem := rfl
@[simp] theorem State.applyReset_params : (s.applyReset).params = s.params := rfl

/-! `apply_registerWrite` -/

@[simp] theorem State.apply_registerWrite_pc (i : Fin 32) (v : Word) : (s.apply (.registerWrite i v)).pc = nextPc s.pc := rfl
@[simp] theorem State.apply_registerWrite_halted (i : Fin 32) (v : Word) : (s.apply (.registerWrite i v)).halted = s.halted := rfl
@[simp] theorem State.apply_registerWrite_trapKind (i : Fin 32) (v : Word) : (s.apply (.registerWrite i v)).trapKind = s.trapKind := rfl
@[simp] theorem State.apply_registerWrite_regs (i : Fin 32) (v : Word) : (s.apply (.registerWrite i v)).regs = s.regs.set i.val v := rfl
@[simp] theorem State.apply_registerWrite_mem (i : Fin 32) (v : Word) : (s.apply (.registerWrite i v)).mem = s.mem := rfl
@[simp] theorem State.apply_registerWrite_params (i : Fin 32) (v : Word) : (s.apply (.registerWrite i v)).params = s.params := rfl

/-! `apply_memoryWrite` -/

@[simp] theorem State.apply_memoryWrite_pc (addr v : Word) : (s.apply (.memoryWrite addr v)).pc = nextPc s.pc := rfl
@[simp] theorem State.apply_memoryWrite_halted (addr v : Word) : (s.apply (.memoryWrite addr v)).halted = s.halted := rfl
@[simp] theorem State.apply_memoryWrite_trapKind (addr v : Word) : (s.apply (.memoryWrite addr v)).trapKind = s.trapKind := rfl
@[simp] theorem State.apply_memoryWrite_regs (addr v : Word) : (s.apply (.memoryWrite addr v)).regs = s.regs := rfl
@[simp] theorem State.apply_memoryWrite_mem (addr v : Word) : (s.apply (.memoryWrite addr v)).mem = Memory.write s.mem addr.toNat v := rfl
@[simp] theorem State.apply_memoryWrite_params (addr v : Word) : (s.apply (.memoryWrite addr v)).params = s.params := rfl

/-! `apply_pcAdjust` -/

@[simp] theorem State.apply_pcAdjust_pc (a : PcAdjust) : (s.apply (.pcAdjust a)).pc = a.target s.pc := rfl
@[simp] theorem State.apply_pcAdjust_halted (a : PcAdjust) : (s.apply (.pcAdjust a)).halted = s.halted := rfl
@[simp] theorem State.apply_pcAdjust_trapKind (a : PcAdjust) : (s.apply (.pcAdjust a)).trapKind = s.trapKind := rfl
@[simp] theorem State.apply_pcAdjust_regs (a : PcAdjust) : (s.apply (.pcAdjust a)).regs = s.regs := rfl
@[simp] theorem State.apply_pcAdjust_mem (a : PcAdjust) : (s.apply (.pcAdjust a)).mem = s.mem := rfl
@[simp] theorem State.apply_pcAdjust_params (a : PcAdjust) : (s.apply (.pcAdjust a)).params = s.params := rfl

/-! `apply_noOp` -/

@[simp] theorem State.apply_noOp_pc : (s.apply .noOp).pc = nextPc s.pc := rfl
@[simp] theorem State.apply_noOp_halted : (s.apply .noOp).halted = s.halted := rfl
@[simp] theorem State.apply_noOp_trapKind : (s.apply .noOp).trapKind = s.trapKind := rfl
@[simp] theorem State.apply_noOp_regs : (s.apply .noOp).regs = s.regs := rfl
@[simp] theorem State.apply_noOp_mem : (s.apply .noOp).mem = s.mem := rfl
@[simp] theorem State.apply_noOp_params : (s.apply .noOp).params = s.params := rfl

/-! `boot` and `loadWord` -/

@[simp] theorem State.boot_pc (p : Params) (regs : Vector Word 32) (mem : Memory 32) :
    (State.boot p regs mem).pc = 0#32 := rfl
@[simp] theorem State.boot_halted (p : Params) (regs : Vector Word 32) (mem : Memory 32) :
    (State.boot p regs mem).halted = false := rfl
@[simp] theorem State.boot_trapKind (p : Params) (regs : Vector Word 32) (mem : Memory 32) :
    (State.boot p regs mem).trapKind = none := rfl
@[simp] theorem State.boot_regs (p : Params) (regs : Vector Word 32) (mem : Memory 32) :
    (State.boot p regs mem).regs = regs := rfl
@[simp] theorem State.boot_mem (p : Params) (regs : Vector Word 32) (mem : Memory 32) :
    (State.boot p regs mem).mem = mem := rfl
@[simp] theorem State.boot_params (p : Params) (regs : Vector Word 32) (mem : Memory 32) :
    (State.boot p regs mem).params = p := rfl
@[simp] theorem State.loadWord_pc (w : Word) : (s.loadWord w).pc = s.pc := rfl
@[simp] theorem State.loadWord_halted (w : Word) : (s.loadWord w).halted = s.halted := rfl
@[simp] theorem State.loadWord_trapKind (w : Word) : (s.loadWord w).trapKind = s.trapKind := rfl
@[simp] theorem State.loadWord_regs (w : Word) : (s.loadWord w).regs = s.regs := rfl
@[simp] theorem State.loadWord_mem (w : Word) : (s.loadWord w).mem = s.mem := rfl
@[simp] theorem State.loadWord_params_imem (w : Word) :
    (s.loadWord w).params.imem = Memory.writeBytes s.params.imem s.pc.toNat (wordBytes w) := rfl
@[simp] theorem State.loadWord_params_imemWords (w : Word) :
    (s.loadWord w).params.imemWords = max s.params.imemWords (wordsToHold s.pc) := rfl
@[simp] theorem State.loadWord_params_memWords (w : Word) :
    (s.loadWord w).params.memWords = s.params.memWords := rfl

/-! Registers read after an update -/

/-- A read of a register just written gives the value, for register 0 like any other (R18). -/
@[simp] theorem State.readReg_writeReg_same (i : Fin 32) (v : Word) : (s.writeReg i v).readReg i = v := by
  simp [State.readReg]

/-- A write of one register leaves every other register alone. -/
theorem State.readReg_writeReg_other {i r : Fin 32} (h : r ≠ i) (v : Word) :
    (s.writeReg i v).readReg r = s.readReg r := by
  have : i.val ≠ r.val := fun e => h (Fin.ext e.symm)
  simp [State.readReg, this]

/-- A register read depends on the register file only. -/
theorem State.readReg_congr {s t : State} (h : t.regs = s.regs) (r : Fin 32) : t.readReg r = s.readReg r := by
  simp [State.readReg, h]

end Sys2Proof.Machine
end

