-- ==== Sys2Proof/Laws/Ops.lean ====
section
/-! SUPPORT. What each shared operation can do, said once: ending a step, applying an Effect, loading a word. -/

namespace Sys2Proof.Machine

variable (s : State)

@[simp] theorem State.finish_effect (e : Effect) : s.finish (.effect e) = .next (s.apply e) := rfl

@[simp] theorem State.finish_raise (c : TrapCause) : s.finish (.raise c) = .next (s.takeTrap c) := rfl

/-- Ending a step always answers a next state. -/
theorem State.finish_next (d : Dispatched) : ∃ t, s.finish d = .next t := by
  cases d <;> exact ⟨_, rfl⟩

/-- Applying an Effect leaves the halted flag alone. -/
@[simp] theorem State.apply_halted (e : Effect) : (s.apply e).halted = s.halted := by
  cases e <;> rfl

/-- Applying an Effect leaves the trap record alone. -/
@[simp] theorem State.apply_trapKind (e : Effect) : (s.apply e).trapKind = s.trapKind := by
  cases e <;> rfl

/-- Applying an Effect leaves the parameters alone. -/
@[simp] theorem State.apply_params (e : Effect) : (s.apply e).params = s.params := by
  cases e <;> rfl

/-- Applying an Effect keeps `pc` a multiple of 4 (R13). -/
theorem State.apply_pc_aligned (h : s.pc.toNat % 4 = 0) (e : Effect) : (s.apply e).pc.toNat % 4 = 0 := by
  cases e with
  | registerWrite i v => exact nextPc_aligned h
  | memoryWrite a v => exact nextPc_aligned h
  | pcAdjust a => exact a.target_aligned h
  | noOp => exact nextPc_aligned h

/-- A PC effect or a no-op changes nothing but `pc`; a register write changes one register more; a memory write one word
more (R127). -/
theorem State.apply_changes_one (e : Effect) :
    ((s.apply e).regs = s.regs ∧ (s.apply e).mem = s.mem) ∨
    (∃ i v, e = .registerWrite i v ∧ (s.apply e).mem = s.mem ∧ (s.apply e).regs = s.regs.set i.val v) ∨
    (∃ a v, e = .memoryWrite a v ∧ (s.apply e).regs = s.regs ∧ (s.apply e).mem = Memory.write s.mem a.toNat v) := by
  cases e with
  | registerWrite i v => exact .inr (.inl ⟨i, v, rfl, rfl, rfl⟩)
  | memoryWrite a v => exact .inr (.inr ⟨a, v, rfl, rfl, rfl⟩)
  | pcAdjust a => exact .inl ⟨rfl, rfl⟩
  | noOp => exact .inl ⟨rfl, rfl⟩

/-- The fetch reads the instruction store only. -/
theorem State.ifetch_congr {s t : State} (h : t.params = s.params) (p : Word) : t.ifetch p = s.ifetch p := by
  simp [State.ifetch, State.imemByte, h]

/-- The four bytes of a loaded word are read back where they were put. -/
theorem Memory.read_writeBytes_word {m : Memory 8} (h : Memory.wf m = true) (a : Nat) (w : Word) :
    Memory.read (Memory.writeBytes m a (wordBytes w)) a = w.extractLsb' 24 8 ∧
    Memory.read (Memory.writeBytes m a (wordBytes w)) (a + 1) = w.extractLsb' 16 8 ∧
    Memory.read (Memory.writeBytes m a (wordBytes w)) (a + 2) = w.extractLsb' 8 8 ∧
    Memory.read (Memory.writeBytes m a (wordBytes w)) (a + 3) = w.extractLsb' 0 8 := by
  simp only [wordBytes, Memory.writeBytes]
  refine ⟨?_, ?_, ?_, ?_⟩
  · rw [Memory.read_write_other _ (by omega), Memory.read_write_other _ (by omega),
      Memory.read_write_other _ (by omega), Memory.read_write_same h]
  · rw [Memory.read_write_other _ (by omega), Memory.read_write_other _ (by omega),
      Memory.read_write_same (Memory.write_wf h _ _)]
  · rw [Memory.read_write_other _ (by omega),
      Memory.read_write_same (Memory.write_wf (Memory.write_wf h _ _) _ _)]
  · exact Memory.read_write_same (Memory.write_wf (Memory.write_wf (Memory.write_wf h _ _) _ _) _ _) _ _

/-- A loaded word is what the next fetch reads. -/
theorem State.ifetch_loadWord (h : Memory.wf s.params.imem = true) (w : Word) :
    (s.loadWord w).ifetch s.pc = w := by
  obtain ⟨h0, h1, h2, h3⟩ := Memory.read_writeBytes_word h s.pc.toNat w
  simp only [State.ifetch, State.imemByte, State.loadWord_params_imem, h0, h1, h2, h3, assemble_bytes]

/-- A loaded word lies inside the instruction store. -/
theorem State.fetchInRange_loadWord (w : Word) : (s.loadWord w).fetchInRange = true := by
  have h : (wordsToHold s.pc).val ≤ (max s.params.imemWords (wordsToHold s.pc)).val := Fin.le_def.mp (le_max_right _ _)
  have h' : (wordsToHold s.pc).val = s.pc.toNat / 4 + 1 := rfl
  refine decide_eq_true (show s.pc.toNat < 4 * (max s.params.imemWords (wordsToHold s.pc)).val from ?_)
  omega

end Sys2Proof.Machine
end

