-- ==== Sys2Proof/Laws/Exec.lean ====
section
/-! SUPPORT. One lemma per dispatch: what it answers on register indices in range, and out of range; and what `exec` can do. -/

namespace Sys2Proof.Machine

/-- R-shape with every index in range: one register write (R96). -/
@[simp] theorem dispatchR_val (rd rs rt : Fin 32) (alu : Word → Word → Word) (s : State) :
    dispatchR rd.val rs.val rt.val alu s = .effect (.registerWrite rd (alu (s.readReg rs) (s.readReg rt))) := by
  simp [dispatchR]

/-- R-shape with an index out of range: SEGFAULT (R142). -/
theorem dispatchR_out_of_range {rd rs rt : Nat} (h : 32 ≤ rs ∨ 32 ≤ rt ∨ 32 ≤ rd) (alu : Word → Word → Word)
    (s : State) : dispatchR rd rs rt alu s = .raise .registerIndex := by
  unfold dispatchR
  split
  case h_1 hs ht hd =>
    have := (regIndex_eq_some hs) ▸ Fin.isLt _
    have := (regIndex_eq_some ht) ▸ Fin.isLt _
    have := (regIndex_eq_some hd) ▸ Fin.isLt _
    omega
  · rfl

/-- R-shape answers a register write to `rd` or the register-index trap. -/
theorem dispatchR_cases (rd rs rt : Nat) (alu : Word → Word → Word) (s : State) :
    (∃ i v, i.val = rd ∧ dispatchR rd rs rt alu s = .effect (.registerWrite i v)) ∨
    dispatchR rd rs rt alu s = .raise .registerIndex := by
  unfold dispatchR
  split
  case h_1 hd => exact .inl ⟨_, _, regIndex_eq_some hd, rfl⟩
  · exact .inr rfl

/-- I-shape with both indices in range: the instruction's own dispatch (R100). -/
@[simp] theorem dispatchI_val (rs rt : Fin 32) (k : Fin 32 → Fin 32 → Dispatched) :
    dispatchI rs.val rt.val k = k rs rt := by
  simp [dispatchI]

/-- I-shape with an index out of range: SEGFAULT (R142). -/
theorem dispatchI_out_of_range {rs rt : Nat} (h : 32 ≤ rs ∨ 32 ≤ rt) (k : Fin 32 → Fin 32 → Dispatched) :
    dispatchI rs rt k = .raise .registerIndex := by
  unfold dispatchI
  split
  case h_1 hs ht =>
    have := (regIndex_eq_some hs) ▸ Fin.isLt _
    have := (regIndex_eq_some ht) ▸ Fin.isLt _
    omega
  · rfl

/-- I-shape answers its own dispatch on the two indices or the register-index trap. -/
theorem dispatchI_cases (rs rt : Nat) (k : Fin 32 → Fin 32 → Dispatched) :
    (∃ i j : Fin 32, i.val = rs ∧ j.val = rt ∧ dispatchI rs rt k = k i j) ∨
    dispatchI rs rt k = .raise .registerIndex := by
  unfold dispatchI
  split
  case h_1 hs ht => exact .inl ⟨_, _, regIndex_eq_some hs, regIndex_eq_some ht, rfl⟩
  · exact .inr rfl

/-- `exec` ends the step with what the dispatcher answers; HALT, which is not dispatched, halts (R70). -/
theorem exec_eq_dispatchOf (i : Instr) (s : State) :
    exec i s = match dispatchOf i s with
      | some d => s.finish d
      | none => .next s.halt := by
  cases i <;> rfl

/-- What an instruction can do: halt, apply one Effect, or take a trap. -/
theorem exec_cases {i : Instr} {s t : State} (h : exec i s = .next t) :
    t = s.halt ∨ (∃ e, dispatchOf i s = some (.effect e) ∧ t = s.apply e) ∨
    (∃ c, dispatchOf i s = some (.raise c) ∧ t = s.takeTrap c) := by
  rw [exec_eq_dispatchOf] at h
  cases hd : dispatchOf i s with
  | none => rw [hd] at h; cases h; exact .inl rfl
  | some d =>
    rw [hd] at h
    cases d with
    | effect e => cases h; exact .inr (.inl ⟨e, rfl, rfl⟩)
    | raise c => cases h; exact .inr (.inr ⟨c, rfl, rfl⟩)

/-- R-shape writes `rd` or takes the register-index trap: it dispatches no memory write. -/
theorem dispatchR_ne_memoryWrite (rd rs rt : Nat) (alu : Word → Word → Word) (s : State) (a v : Word) :
    dispatchR rd rs rt alu s ≠ .effect (.memoryWrite a v) := by
  intro h
  rcases dispatchR_cases rd rs rt alu s with ⟨_, _, _, e⟩ | e <;> simp [e] at h

/-- R-shape writes no register but `rd`. -/
theorem dispatchR_registerWrite {rd rs rt : Nat} {alu : Word → Word → Word} {s : State} {r : Fin 32} {v : Word}
    (h : dispatchR rd rs rt alu s = .effect (.registerWrite r v)) : r.val = rd := by
  rcases dispatchR_cases rd rs rt alu s with ⟨i, _, hi, e⟩ | e <;> rw [e] at h
  · cases h; exact hi
  · cases h

/-- I-shape dispatches an Effect only by its own dispatch on two indices in range. -/
theorem dispatchI_effect {rs rt : Nat} {k : Fin 32 → Fin 32 → Dispatched} {e : Effect}
    (h : dispatchI rs rt k = .effect e) :
    ∃ i j : Fin 32, i.val = rs ∧ j.val = rt ∧ k i j = .effect e := by
  rcases dispatchI_cases rs rt k with ⟨i, j, hi, hj, he⟩ | he
  · exact ⟨i, j, hi, hj, he ▸ h⟩
  · rw [he] at h; cases h

/-- A memory write that is dispatched goes to the word that `storeAddress` gives, which has passed the bounds check (R104,
R122). -/
theorem dispatchOf_memoryWrite {i : Instr} {s : State} {a v : Word}
    (h : dispatchOf i s = some (.effect (.memoryWrite a v))) :
    storeAddress i s = some a ∧ s.memInBounds a = true := by
  cases i with
  | addu rd rs rt _ => exact absurd (Option.some.inj h) (dispatchR_ne_memoryWrite rd rs rt aluAddu s a v)
  | subu rd rs rt _ => exact absurd (Option.some.inj h) (dispatchR_ne_memoryWrite rd rs rt aluSubu s a v)
  | and rd rs rt _ => exact absurd (Option.some.inj h) (dispatchR_ne_memoryWrite rd rs rt aluAnd s a v)
  | or rd rs rt _ => exact absurd (Option.some.inj h) (dispatchR_ne_memoryWrite rd rs rt aluOr s a v)
  | nor rd rs rt _ => exact absurd (Option.some.inj h) (dispatchR_ne_memoryWrite rd rs rt aluNor s a v)
  | addiu rt rs imm =>
    obtain ⟨_, _, -, -, e⟩ := dispatchI_effect (Option.some.inj h)
    cases e
  | beq rs rt imm =>
    obtain ⟨_, _, -, -, e⟩ := dispatchI_effect (Option.some.inj h)
    split at e <;> cases e
  | lw rt rs imm =>
    obtain ⟨_, _, -, -, e⟩ := dispatchI_effect (Option.some.inj h)
    split at e <;> cases e
  | sw rt rs imm =>
    obtain ⟨i, _, rfl, -, e⟩ := dispatchI_effect (Option.some.inj h)
    split at e
    case isTrue hb => cases e; exact ⟨by simp [storeAddress], hb⟩
    case isFalse => cases e
  | j address => cases h
  | halt _ => cases h

/-- A memory write that is dispatched has passed the bounds check (R122). -/
theorem dispatchOf_memoryWrite_inBounds {i : Instr} {s : State} {a v : Word}
    (h : dispatchOf i s = some (.effect (.memoryWrite a v))) : s.memInBounds a = true :=
  (dispatchOf_memoryWrite h).2

/-- A register write that is dispatched goes to the instruction's one destination (R20, R121). -/
theorem dispatchOf_registerWrite {i : Instr} {s : State} {r : Fin 32} {v : Word}
    (h : dispatchOf i s = some (.effect (.registerWrite r v))) : i.writtenReg = some r.val := by
  cases i with
  | addu rd rs rt _ => exact congrArg some (dispatchR_registerWrite (Option.some.inj h)).symm
  | subu rd rs rt _ => exact congrArg some (dispatchR_registerWrite (Option.some.inj h)).symm
  | and rd rs rt _ => exact congrArg some (dispatchR_registerWrite (Option.some.inj h)).symm
  | or rd rs rt _ => exact congrArg some (dispatchR_registerWrite (Option.some.inj h)).symm
  | nor rd rs rt _ => exact congrArg some (dispatchR_registerWrite (Option.some.inj h)).symm
  | addiu rt rs imm =>
    obtain ⟨_, _, -, rfl, e⟩ := dispatchI_effect (Option.some.inj h)
    cases e; rfl
  | beq rs rt imm =>
    obtain ⟨_, _, -, -, e⟩ := dispatchI_effect (Option.some.inj h)
    split at e <;> cases e
  | lw rt rs imm =>
    obtain ⟨_, _, -, rfl, e⟩ := dispatchI_effect (Option.some.inj h)
    split at e
    · cases e; rfl
    · cases e
  | sw rt rs imm =>
    obtain ⟨_, _, -, -, e⟩ := dispatchI_effect (Option.some.inj h)
    split at e <;> cases e
  | j address => cases h
  | halt _ => cases h

end Sys2Proof.Machine
end

