-- ==== Sys2Proof/Laws/PerInstr.lean ====
section
/-! SUPPORT. Per-instruction laws of the encoding: the family FixedBits. -/

namespace Sys2Proof.Laws.FixedBits

open Sys2Proof

/-- The word of an instruction has the fixed bits of its row of the opcode table, and the classifier gives its shape (R57,
R58, R59). -/
def Statement (i : Instr) : Prop :=
  encode i &&& i.op.mask = i.op.pattern ∧ classify (firstByte (encode i)) = i.shape

/-- The R-shape mask keeps the opcode and the funct (R59). -/
theorem and_functMask (o : BitVec 6) (rs rt rd sh : BitVec 5) (f : BitVec 6) :
    packR o rs rt rd sh f &&& 0xFC00003F#32 = packR o 0#5 0#5 0#5 0#5 f := by
  apply BitVec.eq_of_getLsbD_eq
  intro i hi
  simp only [packR, BitVec.getLsbD_and, BitVec.getLsbD_append]
  interval_cases i <;> simp

theorem addu (rd rs rt : Nat) (sh : BitVec 5) : Statement (.addu rd rs rt sh) :=
  ⟨(and_functMask _ _ _ _ _ _).trans rfl, by simp [classify_firstByte, encode, Instr.shape]⟩

theorem subu (rd rs rt : Nat) (sh : BitVec 5) : Statement (.subu rd rs rt sh) :=
  ⟨(and_functMask _ _ _ _ _ _).trans rfl, by simp [classify_firstByte, encode, Instr.shape]⟩

theorem and (rd rs rt : Nat) (sh : BitVec 5) : Statement (.and rd rs rt sh) :=
  ⟨(and_functMask _ _ _ _ _ _).trans rfl, by simp [classify_firstByte, encode, Instr.shape]⟩

theorem or (rd rs rt : Nat) (sh : BitVec 5) : Statement (.or rd rs rt sh) :=
  ⟨(and_functMask _ _ _ _ _ _).trans rfl, by simp [classify_firstByte, encode, Instr.shape]⟩

theorem nor (rd rs rt : Nat) (sh : BitVec 5) : Statement (.nor rd rs rt sh) :=
  ⟨(and_functMask _ _ _ _ _ _).trans rfl, by simp [classify_firstByte, encode, Instr.shape]⟩

theorem addiu (rt rs : Nat) (imm : BitVec 16) : Statement (.addiu rt rs imm) :=
  ⟨(and_opcodeMask_eq _ _).mpr (opcodeField_packI _ _ _ _), by simp [classify_firstByte, encode, Instr.shape]⟩

theorem beq (rs rt : Nat) (imm : BitVec 16) : Statement (.beq rs rt imm) :=
  ⟨(and_opcodeMask_eq _ _).mpr (opcodeField_packI _ _ _ _), by simp [classify_firstByte, encode, Instr.shape]⟩

theorem lw (rt rs : Nat) (imm : BitVec 16) : Statement (.lw rt rs imm) :=
  ⟨(and_opcodeMask_eq _ _).mpr (opcodeField_packI _ _ _ _), by simp [classify_firstByte, encode, Instr.shape]⟩

theorem sw (rt rs : Nat) (imm : BitVec 16) : Statement (.sw rt rs imm) :=
  ⟨(and_opcodeMask_eq _ _).mpr (opcodeField_packI _ _ _ _), by simp [classify_firstByte, encode, Instr.shape]⟩

theorem j (address : BitVec 26) : Statement (.j address) :=
  ⟨(and_opcodeMask_eq _ _).mpr (opcodeField_packJ _ _), by simp [classify_firstByte, encode, Instr.shape]⟩

theorem halt (ignored : BitVec 26) : Statement (.halt ignored) :=
  ⟨(and_opcodeMask_eq _ _).mpr (opcodeField_packJ _ _), by simp [classify_firstByte, encode, Instr.shape]⟩

end Sys2Proof.Laws.FixedBits
end

