-- ==== Sys2Proof/Laws/Ports.lean ====
section
/-! SUPPORT. What the register ports show of a word (R131), by its opcode; the write index is the decoded instruction's
destination; and what an activity that applies an Effect says of the word it runs. -/

namespace Sys2Proof.Machine

/-- The port indices of an R-shape word are its `rs`, `rt` and `rd` fields. -/
theorem portIndices_rShape {w : Word} (h : opcodeField w = 0x00#6) :
    readIndices w = some (rsField w, rtField w) ∧ writeIndex w = some (rdField w) := by
  simp [readIndices, writeIndex, classify_firstByte, decodeFields, h]

/-- The read indices of an I-shape word are its `rs` and `rt` fields, and the write index is `rt` for `addiu` and `lw`. -/
theorem portIndices_iShape {w : Word} (h0 : opcodeField w ≠ 0x00#6) (h2 : opcodeField w ≠ 0x02#6)
    (h3 : opcodeField w ≠ 0x3F#6) :
    readIndices w = some (rsField w, rtField w) ∧
    writeIndex w = if opcodeField w = 0x09#6 ∨ opcodeField w = 0x23#6 then some (rtField w) else none := by
  simp [readIndices, writeIndex, classify_firstByte, decodeFields, h0, h2, h3]

/-- The write index of a word is the destination of the instruction it decodes to (R20). -/
theorem writeIndex_of_decodeWord {w : Word} {i : Instr} {r : Fin 32} (h : decodeWord w = .ok i)
    (hr : i.writtenReg = some r.val) : writeIndex w = some (BitVec.ofFin r) := by
  have field : ∀ b : BitVec 5, some b.toNat = some r.val → some b = some (BitVec.ofFin r) := fun b hb =>
    congrArg some (BitVec.eq_of_toNat_eq (Option.some.inj hb))
  by_cases h0 : opcodeField w = 0x00#6
  · rw [decodeWord_rShape h0] at h
    rw [(portIndices_rShape h0).2]
    simp only [select] at h
    repeat' split at h
    all_goals cases h
    all_goals exact field _ hr
  by_cases h2 : opcodeField w = 0x02#6
  · rw [decodeWord_jShape h2] at h; cases h; cases hr
  by_cases h3 : opcodeField w = 0x3F#6
  · rw [decodeWord_haltShape h3] at h; cases h; cases hr
  rw [decodeWord_iShape h0 h2 h3] at h
  rw [(portIndices_iShape h0 h2 h3).2]
  simp only [select] at h
  split at h
  case isTrue e => cases h; rw [if_pos (.inl e)]; exact field _ hr
  split at h
  · cases h; cases hr
  split at h
  case isTrue e => cases h; rw [if_pos (.inr e)]; exact field _ hr
  split at h
  · cases h; cases hr
  · cases h

/-- A word whose activity is an Effect decodes to an instruction whose dispatch is that Effect. -/
theorem wordActivity_acts {w : Word} {s : State} {e : Effect} (h : wordActivity w s = .acts e) :
    ∃ i, decodeWord w = .ok i ∧ dispatchOf i s = some (.effect e) := by
  unfold wordActivity at h
  split at h
  · cases h
  case h_2 i hi =>
    refine ⟨i, hi, ?_⟩
    split at h
    · cases h
    case h_2 hd => cases h; exact hd
    · cases h

/-- A step request whose activity is an Effect runs a fetched word, that of `imem_rdata`. -/
theorem activity_acts {s : State} {e : Effect} (h : activity s = .acts e) :
    s.fetchedWord = some (s.ifetch s.pc) ∧ wordActivity (s.ifetch s.pc) s = .acts e := by
  unfold activity at h
  split at h
  · cases h
  split at h
  · cases h
  split at h
  · cases h
  case isFalse ha hf =>
    exact ⟨by simp_all [State.fetchedWord], h⟩

end Sys2Proof.Machine
end

