-- ==== Sys2Proof/Laws/Step.lean ====
section
/-! SUPPORT. What a step can do, said once; every invariant is derived from `step_cases`. -/

namespace Sys2Proof.Machine

theorem step_eq (s : State) : step s = loopStep s := rfl

/-- A step while Halted (R78). -/
theorem step_of_halted {s : State} (h : s.halted = true) : step s = .next s := by
  simp [step_eq, loopStep, h]

/-- A step of a Running core inside the instruction store runs the word at `pc` (R70). -/
theorem step_of_running {s : State} (h : s.halted = false) (ha : s.pcAligned = true) (hf : s.fetchInRange = true) :
    step s = runWord (s.ifetch s.pc) s := by
  simp [step_eq, loopStep, h, ha, hf]

/-- A step of a Running core outside the instruction store takes the fetch trap (R71). -/
theorem step_of_out_of_range {s : State} (h : s.halted = false) (ha : s.pcAligned = true)
    (hf : s.fetchInRange = false) : step s = .next (s.takeTrap .fetchOutOfRange) := by
  simp [step_eq, loopStep, h, ha, hf]

/-- A step of a Running core at a misaligned `pc` is refused (R34). -/
theorem step_of_misaligned {s : State} (h : s.halted = false) (ha : s.pcAligned = false) :
    step s = .refused .misalignedPc := by
  simp [step_eq, loopStep, h, ha]

/-- What running a word can do. -/
theorem runWord_cases {w : Word} {s t : State} (h : runWord w s = .next t) :
    t = s.halt ∨ (∃ i e, decodeWord w = .ok i ∧ dispatchOf i s = some (.effect e) ∧ t = s.apply e) ∨
    (∃ c, t = s.takeTrap c) := by
  unfold runWord at h
  split at h
  case h_1 i hi =>
    rcases exec_cases h with rfl | ⟨e, he, rfl⟩ | ⟨c, -, rfl⟩
    · exact .inl rfl
    · exact .inr (.inl ⟨i, e, hi, he, rfl⟩)
    · exact .inr (.inr ⟨c, rfl⟩)
  case h_2 c _ => cases h; exact .inr (.inr ⟨_, rfl⟩)

/-- Everything a step can do: nothing while Halted; else halt, apply one Effect of the decoded instruction, or take a
trap. -/
theorem step_cases {s t : State} (h : step s = .next t) :
    (s.halted = true ∧ t = s) ∨
    (s.halted = false ∧
      (t = s.halt ∨
        (∃ i e, decodeWord (s.ifetch s.pc) = .ok i ∧ dispatchOf i s = some (.effect e) ∧ t = s.apply e) ∨
        (∃ c, t = s.takeTrap c))) := by
  cases hh : s.halted with
  | true => rw [step_of_halted hh] at h; cases h; exact .inl ⟨rfl, rfl⟩
  | false =>
    refine .inr ⟨rfl, ?_⟩
    cases ha : s.pcAligned with
    | false => rw [step_of_misaligned hh ha] at h; cases h
    | true =>
      cases hf : s.fetchInRange with
      | false => rw [step_of_out_of_range hh ha hf] at h; cases h; exact .inr (.inr ⟨_, rfl⟩)
      | true => rw [step_of_running hh ha hf] at h; exact runWord_cases h

end Sys2Proof.Machine
end

