-- ==== Sys2Proof/Laws/Run.lean ====
section
/-! SUPPORT. A run of the machine as steps (R79), and the one induction that carries an invariant along it. -/

namespace Sys2Proof.Machine

/-- A run of no steps. -/
@[simp] theorem runFor_zero (s : State) : runFor 0 s = .next s := rfl

/-- One step of a run. -/
theorem runFor_succ (n : Nat) (s : State) :
    runFor (n + 1) s = match step s with
      | .next t => runFor n t
      | .fault r => .fault r
      | .refused r => .refused r := rfl

/-- The host's run of any machine goes on from the next state. -/
theorem host_run_of_next (M : Host.Core) (n : Nat) (s t : M.State) (h : M.step s = .next t) :
    M.run (n + 1) s = M.run n t := by
  rw [Host.Core.run, h]

/-- The host's run of any machine ends at a refusal. -/
theorem host_run_of_refused (M : Host.Core) (n : Nat) (s : M.State) (r : M.Refusal) (h : M.step s = .refused r) :
    M.run (n + 1) s = .refused r := by
  rw [Host.Core.run, h]

/-- The run of this machine is the host's run of it. -/
theorem runFor_eq_host_run (n : Nat) (s : State) : runFor n s = Host.Core.run Sys2Proof.core n s := by
  induction n generalizing s with
  | zero => rfl
  | succ n ih =>
    cases hs : step s with
    | next t =>
      exact (show runFor (n + 1) s = runFor n t by rw [runFor_succ, hs]).trans
        ((ih t).trans (host_run_of_next Sys2Proof.core n s t hs).symm)
    | fault r => cases r
    | refused r =>
      exact (show runFor (n + 1) s = .refused r by rw [runFor_succ, hs]).trans
        (host_run_of_refused Sys2Proof.core n s r hs).symm

/-- A run goes on from the next state. -/
theorem runFor_succ_of_next {n : Nat} {s t : State} (h : step s = .next t) : runFor (n + 1) s = runFor n t := by
  rw [runFor_succ, h]

/-- A run ends at a refusal. -/
theorem runFor_succ_of_refused {n : Nat} {s : State} {r : Refusal} (h : step s = .refused r) :
    runFor (n + 1) s = .refused r := by
  rw [runFor_succ, h]

/-- A run that answers a state took its first step to a next state. -/
theorem runFor_succ_next {n : Nat} {s u : State} (h : runFor (n + 1) s = .next u) :
    ∃ t, step s = .next t ∧ runFor n t = .next u := by
  cases hs : step s with
  | next t => exact ⟨t, rfl, by rw [← runFor_succ_of_next hs]; exact h⟩
  | fault r => cases r
  | refused r => rw [runFor_succ_of_refused hs] at h; cases h

/-- What every step keeps, every run keeps. -/
theorem runFor_keeps {P : State → Prop} (hstep : ∀ s t, P s → step s = .next t → P t) {n : Nat} {s u : State}
    (hs : P s) (h : runFor n s = .next u) : P u := by
  induction n generalizing s with
  | zero => cases h; exact hs
  | succ n ih =>
    obtain ⟨t, ht, hu⟩ := runFor_succ_next h
    exact ih (hstep s t hs ht) hu

end Sys2Proof.Machine
end

