-- ==== Sys2Proof/Tests/Slice0.lean ====
section
/-! SUPPORT. The model's own tests. Expected results are from 95_test_vectors.md (each test names its vector) or the worked
examples of the instruction rules. Then a witness for the hypotheses of each statement of Certificates/Slice0/Obligations.lean. -/

namespace Sys2Proof.Tests

open Sys2Proof Sys2Proof.Machine

/-! ### Small states -/

/-- A reset machine at a `pc`, with one word loaded there and a store just long enough for it. -/
def at_ (pc w : Word) : State := State.loadWord { State.reset with pc := pc } w

/-- The state with some registers set. -/
def withRegs (s : State) (l : List (Fin 32 × Word)) : State := l.foldl (fun s p => s.writeReg p.1 p.2) s

/-- The state with some data words set. -/
def withMem (s : State) (l : List (Word × Word)) : State := l.foldl (fun s p => s.memWrite p.1 p.2) s

/-- The next state, where there is one. -/
def after : Outcome → Option State
  | .next t => some t
  | .fault _ => none
  | .refused _ => none

/-- One step, seen as `pc`, halted flag, trap record and one register. -/
def look (s : State) (r : Fin 32) : Option (Word × Bool × Option TrapKind × Word) :=
  (after (step s)).map (fun t => (t.pc, t.halted, t.trapKind, t.readReg r))

/-- One step, seen as `pc`, halted flag, trap record and one data word. -/
def lookMem (s : State) (a : Word) : Option (Word × Bool × Option TrapKind × Word) :=
  (after (step s)).map (fun t => (t.pc, t.halted, t.trapKind, t.memRead a))

/-! ### WellFormed: each check refuses an ill-formed term -/

theorem test_wellFormed_accepts_31 : (Instr.addu 31 31 31 31#5).WellFormed := by decide
theorem test_wellFormed_refuses_rd : ¬ (Instr.addu 32 1 2 0#5).WellFormed := by decide
theorem test_wellFormed_refuses_rs : ¬ (Instr.nor 1 32 2 0#5).WellFormed := by decide
theorem test_wellFormed_refuses_rt : ¬ (Instr.subu 1 2 32 0#5).WellFormed := by decide
theorem test_wellFormed_refuses_addiu_rt : ¬ (Instr.addiu 32 0 0#16).WellFormed := by decide
theorem test_wellFormed_refuses_beq_rs : ¬ (Instr.beq 40 0 0#16).WellFormed := by decide
theorem test_wellFormed_refuses_lw_rs : ¬ (Instr.lw 0 32 0#16).WellFormed := by decide
theorem test_wellFormed_refuses_sw_rt : ¬ (Instr.sw 99 0 0#16).WellFormed := by decide
theorem test_wellFormed_accepts_j : (Instr.j 0x3FFFFFF#26).WellFormed := by decide

/-! ### Decoding (sections 2.2, 2.3) -/

/-- 2.3: `0x00221FE1`, `shamt = 31`. -/
theorem test_decode_shamt : decodeWord 0x00221FE1#32 = .ok (.addu 3 1 2 31#5) := by decide
/-- 2.3: the immediate is not sign-extended by the decoder. -/
theorem test_decode_imm_unsigned : decodeFields .i 0xAC22FFFC#32 = some (.i 0x2B#6 1#5 2#5 65532#16) := by decide
/-- 2.2: the byte `0x80` is not negative. -/
theorem test_classify_high_byte : classify 0x80#8 = .i ∧ classify 0xFC#8 = .halt ∧ classify 0xFB#8 = .i := by decide
/-- P7, 2.3: MIPS `jal` decodes as I-shape and is rejected by its opcode. -/
theorem test_decode_rejects_jal : decodeWord 0x0C000004#32 = .error (.opcode 0x03#6) := by decide
/-- V-R16: the all-zero word is R-shape with funct 0. -/
theorem test_decode_rejects_zero : decodeWord 0#32 = .error (.funct 0#6) := by decide
/-- V-F2: the first byte is the most significant, and the rest is left over. -/
theorem test_decode_bytes :
    decode [0x24#8, 0x01#8, 0x00#8, 0x05#8, 0xFC#8] = .ok (.addiu 1 0 5#16, [0xFC#8]) := by decide
theorem test_decode_truncated : decode [0xFC#8, 0x00#8, 0x00#8] = .error .truncated := by decide
/-- The table's numbering of a row's bits: HALT's fixed bits 31..26. -/
theorem test_decodeTableWord : decodeTableWord 32 0xFC000000 = some (.halt 0#26) := by decide

/-! ### R-shape (section 2.4) -/

/-- V-R2: signed overflow wraps, no trap. -/
theorem test_addu_wraps :
    look (withRegs (at_ 0x40#32 0x00221821#32) [(1, 0x7FFFFFFF#32), (2, 1#32)]) 3 =
      some (0x44#32, false, none, 0x80000000#32) := by decide
/-- V-R6: register 0 is written like any other. -/
theorem test_addu_register_zero :
    look (withRegs (at_ 0x40#32 0x00220021#32) [(0, 0x11#32), (1, 5#32), (2, 7#32)]) 0 =
      some (0x44#32, false, none, 0xC#32) := by decide
/-- V-R7: `rs` minus `rt`. -/
theorem test_subu_order :
    look (withRegs (at_ 0x40#32 0x00222023#32) [(1, 5#32), (2, 7#32)]) 4 =
      some (0x44#32, false, none, 0xFFFFFFFE#32) := by decide
/-- V-R10: a source that is also the destination. -/
theorem test_subu_same_register :
    look (withRegs (at_ 0x40#32 0x01294823#32) [(9, 0xDEADBEEF#32)]) 9 = some (0x44#32, false, none, 0#32) := by decide
/-- V-R11. -/
theorem test_and_bits :
    look (withRegs (at_ 0x40#32 0x00222824#32) [(1, 0xF0F0F0F0#32), (2, 0xFF00FF00#32)]) 5 =
      some (0x44#32, false, none, 0xF000F000#32) := by decide
/-- V-R12. -/
theorem test_or_bits :
    look (withRegs (at_ 0x40#32 0x00223025#32) [(1, 0xF0F0F0F0#32), (2, 0xFF00FF00#32)]) 6 =
      some (0x44#32, false, none, 0xFFF0FFF0#32) := by decide
/-- V-R13. -/
theorem test_nor_bits :
    look (withRegs (at_ 0x40#32 0x00223827#32) [(1, 0xF0F0F0F0#32), (2, 0xFF00FF00#32)]) 7 =
      some (0x44#32, false, none, 0x000F000F#32) := by decide
/-- V-R15: index 31, source and destination. -/
theorem test_nor_register_31 :
    look (withRegs (at_ 0x40#32 0x03FFF827#32) [(31, 0x0000FFFF#32)]) 31 =
      some (0x44#32, false, none, 0xFFFF0000#32) := by decide

/-! ### I-shape (sections 2.5 to 2.8) -/

/-- V-A4: the immediate is sign-extended. -/
theorem test_addiu_sign_extends :
    look (at_ 0x08#32 0x24228000#32) 2 = some (0x0C#32, false, none, 0xFFFF8000#32) := by decide
/-- V-A6: increment in place, wrapping. -/
theorem test_addiu_wraps :
    look (withRegs (at_ 0x08#32 0x24210001#32) [(1, 0xFFFFFFFF#32)]) 1 = some (0x0C#32, false, none, 0#32) := by decide
/-- V-B5: a backward branch. -/
theorem test_beq_backward :
    look (withRegs (at_ 0x14#32 0x1022FFFC#32) [(1, 0x80000000#32), (2, 0x80000000#32)]) 1 =
      some (0x08#32, false, none, 0x80000000#32) := by decide
/-- V-B2: not taken. -/
theorem test_beq_not_taken :
    look (withRegs (at_ 0x10#32 0x10220003#32) [(1, 9#32), (2, 8#32)]) 1 = some (0x14#32, false, none, 9#32) := by decide
/-- V-L1: a word index. -/
theorem test_lw_word_index :
    look (withMem (withRegs (at_ 0x20#32 0x8C220004#32) [(1, 3#32)]) [(7#32, 0xDEADBEEF#32)]) 2 =
      some (0x24#32, false, none, 0xDEADBEEF#32) := by decide
/-- V-L3: the first address out of bounds. -/
theorem test_lw_out_of_bounds :
    look (withRegs (at_ 0x20#32 0x8C220000#32) [(1, 0x20#32), (2, 0x55#32)]) 2 =
      some (0x20#32, true, some .segfault, 0x55#32) := by decide
/-- V-S3: the last word. -/
theorem test_sw_last_word :
    lookMem (withRegs (at_ 0x20#32 0xAC22001F#32) [(2, 7#32)]) 31#32 = some (0x24#32, false, none, 7#32) := by decide
/-- V-S5: a negative address traps and writes nothing. -/
theorem test_sw_negative_address :
    lookMem (withRegs (at_ 0x20#32 0xAC22FFFF#32) [(2, 7#32)]) 31#32 =
      some (0x20#32, true, some .segfault, 0#32) := by decide

/-! ### J-shape, HALT, traps, Halted (sections 2.9 to 2.12) -/

/-- V-J1: a backward jump. -/
theorem test_j_backward : look (at_ 0x1C#32 0x08000003#32) 0 = some (0x0C#32, false, none, 0#32) := by decide
/-- V-J5: the segment is that of `pc + 4`. -/
theorem test_j_segment : jumpTarget 0x0FFFFFFC#32 0x10#26 = 0x10000040#32 := by decide
/-- V-H3: the low bits of a HALT word are not executed. -/
theorem test_halt_ignores_low_bits :
    look (withRegs (at_ 0x04#32 0xFC221821#32) [(1, 5#32), (2, 7#32)]) 3 = some (0x04#32, true, none, 0#32) := by decide
/-- V-H4: a step while Halted. -/
theorem test_step_halted : after (step (at_ 0#32 0x24010005#32).halt) = some (at_ 0#32 0x24010005#32).halt := by decide
/-- V-F5: running past the last word. -/
theorem test_fetch_past_end :
    look { at_ 0#32 0x24010001#32 with pc := 4#32 } 1 = some (4#32, true, some .segfault, 0#32) := by decide
/-- V-R19: MIPS `slt`. -/
theorem test_unkop_funct :
    look (withRegs (at_ 0x40#32 0x0022182A#32) [(1, 5#32), (2, 7#32)]) 3 =
      some (0x40#32, true, some .unkop, 0#32) := by decide
/-- V-U9. -/
theorem test_unkop_opcode : look (at_ 0x04#32 0xA0220000#32) 2 = some (0x04#32, true, some .unkop, 0#32) := by decide
/-- V-F4: bytes are unsigned. -/
theorem test_ifetch_unsigned : (at_ 0#32 0x80FF7F01#32).ifetch 0#32 = 0x80FF7F01#32 := by decide
/-- P10: an empty store, which is the reset machine's. -/
theorem test_reset_first_step : (after (step State.reset)).map (fun t => (t.pc, t.halted, t.trapKind)) =
    some (0#32, true, some .segfault) := by decide
/-- The host's placing of an instruction: it runs as the first after reset (S1). -/
theorem test_withFetchWord :
    look (State.reset.withFetchWord 32 0x00221821) 3 = some (4#32, false, none, 0#32) := by decide

/-! ### Witnesses: states and operands that meet the hypotheses of each statement -/

/-- S1: the source's `addu` at offset 0. -/
def sAddu : State := withRegs (at_ 0#32 0x00221821#32) [(1, 5#32), (2, 7#32)]
/-- A `lw` whose address is the last word, 31 (V-L2). -/
def sLw : State := withMem (withRegs (at_ 0x20#32 0x8C22FFFF#32) [(1, 0x20#32)]) [(31#32, 0x1234#32)]
/-- A `lw` whose address is the first out of bounds, 32 (V-L3). -/
def sLwOut : State := withRegs (at_ 0x20#32 0x8C220000#32) [(1, 0x20#32), (2, 0x55#32)]
/-- A `sw` to the last word, 31 (V-S3). -/
def sSw : State := withRegs (at_ 0x20#32 0xAC22001F#32) [(2, 7#32)]
/-- A `sw` to the first address out of bounds, 32 (V-S4). -/
def sSwOut : State := withRegs (at_ 0x20#32 0xAC220020#32) [(2, 7#32)]
/-- A HALT word with all low bits set (V-H2). -/
def sHalt : State := at_ 0x10#32 0xFFFFFFFF#32
/-- The all-zero word (P5). -/
def sZero : State := at_ 0#32 0#32
/-- An unsupported opcode (V-U1). -/
def sJal : State := at_ 4#32 0x0C000004#32
/-- A core stopped by a trap. -/
def sTrapped : State := sZero.takeTrap .unsupportedFunct
/-- A Running core at a misaligned `pc`. -/
def sMisaligned : State := { sAddu with pc := 2#32 }
/-- The self-branch (V-B4). -/
def sLoop : State := withRegs (at_ 0x10#32 0x1021FFFF#32) [(1, 0x7B#32)]

theorem witness_DecodeInvertsEncode :
    (Instr.addu 31 0 31 31#5).WellFormed ∧ (Instr.sw 31 31 0xFFFF#16).WellFormed ∧ (Instr.halt 0x3FFFFFF#26).WellFormed := by
  decide
theorem witness_EncodeInvertsDecode : decodeWord 0x03FFFFE7#32 = .ok (.nor 31 31 31 31#5) := by decide
theorem witness_FieldsRepackToTheWord :
    decodeFields .r 0xFFFFFFFF#32 = some (.r 63#6 31#5 31#5 31#5 31#5 63#6) ∧
    decodeFields .i 0xFFFFFFFF#32 = some (.i 63#6 31#5 31#5 65535#16) ∧
    decodeFields .j 0xFFFFFFFF#32 = some (.j 63#6 67108863#26) := by decide
theorem witness_MatchAndMaskDecide :
    0x03FFFFE1#32 &&& Op.addu.mask = Op.addu.pattern ∧ 0xFFFFFFFF#32 &&& Op.halt.mask = Op.halt.pattern := by decide
/-- The all-zero word matches no row (V-R16). -/
theorem witness_MatchAndMaskDecide_noRow : ∀ x : Op, 0#32 &&& x.mask ≠ x.pattern := by intro x; cases x <;> decide
theorem witness_UnsupportedWordsTrapUnkop :
    (sZero.Fetching ∧ opcodeField (sZero.ifetch sZero.pc) = 0x00#6 ∧
      functField (sZero.ifetch sZero.pc) ∉ [0x21#6, 0x23#6, 0x24#6, 0x25#6, 0x27#6]) ∧
    (sJal.Fetching ∧
      opcodeField (sJal.ifetch sJal.pc) ∉ [0x00#6, 0x02#6, 0x04#6, 0x09#6, 0x23#6, 0x2B#6, 0x3F#6]) := by decide
theorem witness_AdduAddsRegisters : 0x00221FE1#32 &&& 0xFC00003F#32 = 0x00000021#32 := by decide
theorem witness_SubuSubtractsRegisters : 0x00222023#32 &&& 0xFC00003F#32 = 0x00000023#32 := by decide
theorem witness_AndIntersectsBits : 0x00222824#32 &&& 0xFC00003F#32 = 0x00000024#32 := by decide
theorem witness_OrUnitesBits : 0x00223025#32 &&& 0xFC00003F#32 = 0x00000025#32 := by decide
theorem witness_NorComplementsTheUnion : 0x03FFF827#32 &&& 0xFC00003F#32 = 0x00000027#32 := by decide
theorem witness_RShapeFrame :
    (Instr.addu 3 1 2 0#5).shape = .r ∧ (Instr.addu 3 1 2 0#5).WellFormed ∧
    (Instr.addu 3 1 2 0#5).writtenReg ≠ some 4 ∧ ∃ t, exec (.addu 3 1 2 0#5) sAddu = .next t :=
  ⟨rfl, by decide, by decide, _, rfl⟩
theorem witness_RegisterIndexOutOfRangeTraps :
    ¬ (Instr.addu 32 31 31 0#5).WellFormed ∧ ¬ (Instr.lw 31 32 0#16).WellFormed := by decide
theorem witness_AddiuAddsSignExtendedImmediate : 0x2422FFFF#32 &&& 0xFC000000#32 = 0x24000000#32 := by decide
theorem witness_BeqBranchesWhenEqual :
    0x1022FFFC#32 &&& 0xFC000000#32 = 0x10000000#32 ∧ sLoop.pc.toNat % 4 = 0 ∧ sLoop.regs[1] = sLoop.regs[1] ∧
    sAddu.regs[2] ≠ sAddu.regs[1] := by decide
theorem witness_LwLoadsTheWordAtItsIndex :
    0x8C22FFFF#32 &&& 0xFC000000#32 = 0x8C000000#32 ∧
    (sLw.regs[1] + BitVec.signExtend 32 0xFFFF#16).toNat = 31 ∧ 31 < sLw.params.memWords.val ∧
    sLwOut.params.memWords.val ≤ (sLwOut.regs[1] + BitVec.signExtend 32 0#16).toNat ∧
    (sLwOut.regs[1] + BitVec.signExtend 32 0#16).toNat = 32 ∧
    sLwOut.Fetching ∧ decodeWord (sLwOut.ifetch sLwOut.pc) = .ok (.lw 2 1 0#16) := by decide
theorem witness_SwStoresTheWordAtItsIndex :
    0xAC22001F#32 &&& 0xFC000000#32 = 0xAC000000#32 ∧
    (sSw.regs[1] + BitVec.signExtend 32 0x1F#16).toNat = 31 ∧ 31 < sSw.params.memWords.val ∧ Memory.wf sSw.mem = true ∧
    sSwOut.params.memWords.val ≤ (sSwOut.regs[1] + BitVec.signExtend 32 0x20#16).toNat ∧
    sSwOut.Fetching ∧ decodeWord (sSwOut.ifetch sSwOut.pc) = .ok (.sw 2 1 0x20#16) := by decide
theorem witness_AddiuAndLwFrame :
    (Instr.lw 2 1 0xFFFF#16).op = .lw ∧ (∃ t, exec (.lw 2 1 0xFFFF#16) sLw = .next t) ∧ (Instr.lw 2 1 0xFFFF#16).WellFormed ∧
    (loadAddress (.lw 2 1 0xFFFF#16) sLw = some 31#32 ∧ sLw.memInBounds 31#32 = true) ∧
    (Instr.addiu 2 1 0#16).op = .addiu ∧ ∃ t, exec (.addiu 2 1 0#16) sLw = .next t :=
  ⟨rfl, ⟨_, rfl⟩, by decide, by decide, rfl, _, rfl⟩
theorem witness_SwFrame :
    (Instr.sw 2 1 0x1F#16).op = .sw ∧ (∃ t, exec (.sw 2 1 0x1F#16) sSw = .next t) ∧ (Instr.sw 2 1 0x1F#16).WellFormed ∧
    (storeAddress (.sw 2 1 0x1F#16) sSw = some 31#32 ∧ sSw.memInBounds 31#32 = true) ∧
    storeAddress (.sw 2 32 0#16) sSw = none ∧ ∃ t, exec (.sw 2 32 0#16) sSw = .next t :=
  ⟨rfl, ⟨_, rfl⟩, by decide, by decide, by decide, _, rfl⟩
theorem witness_BeqJumpAndHaltFrame :
    (∃ t, exec (.beq 1 2 3#16) sAddu = .next t) ∧ (∃ t, exec (.j 3#26) sAddu = .next t) ∧
    (∃ t, exec (.halt 0#26) sAddu = .next t) ∧ (Instr.beq 1 2 3#16).WellFormed :=
  ⟨⟨_, rfl⟩, ⟨_, rfl⟩, ⟨_, rfl⟩, by decide⟩
theorem witness_DataAddressCheckIsExact :
    sLw.memInBounds (basePlusImm 0xFFFF8001#32 0x7FFF#16) = true ∧
    sLw.memInBounds (basePlusImm 0#32 0xFFFF#16) = false ∧ sLw.memInBounds (basePlusImm 0x20#32 0xFFFF#16) = true := by decide
theorem witness_JumpsWithinTheSegment : 0x0BFFFFFF#32 &&& 0xFC000000#32 = 0x08000000#32 := by decide
theorem witness_HaltStopsTheCore :
    sHalt.Fetching ∧ sHalt.ifetch sHalt.pc &&& 0xFC000000#32 = 0xFC000000#32 := by decide
theorem witness_EffectsApplyAsDescribed : (31#32).toNat < sSw.memWords ∧ Memory.wf sSw.mem = true := by decide
theorem witness_StepRunsTheDecodedInstruction :
    sAddu.Fetching ∧
    decode [sAddu.imemByte 0, sAddu.imemByte 1, sAddu.imemByte 2, sAddu.imemByte 3] = .ok (.addu 3 1 2 0#5, []) ∧
    (Instr.addu 3 1 2 0#5).WellFormed := by decide
theorem witness_HaltedStepsChangeNothing : sTrapped.halted = true := by decide
theorem witness_FetchPastTheEndTraps :
    (State.reset.halted = false ∧ State.reset.pc.toNat % 4 = 0 ∧
      4 * State.reset.params.imemWords.val ≤ State.reset.pc.toNat) ∧
    (let s : State := { sAddu with pc := 4#32 }
     s.halted = false ∧ s.pc.toNat % 4 = 0 ∧ 4 * s.params.imemWords.val = s.pc.toNat) := by decide
theorem witness_TrapEntryLatchesTheKind :
    activity State.reset = .traps .fetchOutOfRange ∧ activity sLwOut = .traps .memoryAddress ∧
    activity sZero = .traps .unsupportedFunct ∧ activity sJal = .traps .unsupportedOpcode := by decide
theorem witness_StepIsAllOrNothing :
    (∃ t, step sAddu = .next t ∧ t.halted = false ∧ t.readReg 3 ≠ sAddu.readReg 3) ∧
    (∃ t, step sSw = .next t ∧ Memory.read t.mem 31 ≠ Memory.read sSw.mem 31) ∧
    (∃ t, step sLwOut = .next t ∧ t.halted = true) :=
  ⟨⟨_, rfl, by decide⟩, ⟨_, rfl, by decide⟩, ⟨_, rfl, by decide⟩⟩
theorem witness_NextPcFollowsThePolicy :
    (∃ t, step sLoop = .next t) ∧ (∃ t, step sHalt = .next t) ∧ (∃ t, step sZero = .next t) ∧
    (∃ t, step State.reset = .next t) ∧ sLoop.pc.toNat % 4 = 0 := ⟨⟨_, rfl⟩, ⟨_, rfl⟩, ⟨_, rfl⟩, ⟨_, rfl⟩, by decide⟩
theorem witness_StepKeepsTheInvariant :
    sSw.Inv ∧ (∃ t, step sSw = .next t) ∧ (∃ t, clockEdge true true sSw = .next t) ∧
    ∃ t, clockEdge false true sSw = .next t := ⟨by decide, ⟨_, rfl⟩, ⟨_, rfl⟩, _, rfl⟩
theorem witness_RunsNeverStopInTheModel : sLoop.Inv ∧ sTrapped.Inv := by decide
theorem witness_ResetMeetsTheInvariant :
    Memory.wf ([(31, 7#32)] : Memory 32) = true ∧ Memory.within ([(31, 7#32)] : Memory 32) sAddu.params.memWords.val = true ∧
    Memory.wf sAddu.params.imem = true ∧
    Memory.within sAddu.params.imem (4 * sAddu.params.imemWords.val) = true ∧
    (Memory.wf sTrapped.mem = true ∧ Memory.within sTrapped.mem sTrapped.memWords = true ∧
      Memory.wf sTrapped.params.imem = true ∧ Memory.within sTrapped.params.imem sTrapped.imemBytes = true) := by decide
theorem witness_ClockEdgePerformsOneStep : sTrapped.halted = true := by decide
theorem witness_WritePortsShowTheWrites :
    (∃ t, clockEdge false true sAddu = .next t) ∧
    ((ports false true sAddu).rfWe = true ∧ (ports false true sAddu).rfWaddr = some 3#5 ∧
      (ports false true sAddu).rfWdata = some 12#32 ∧ (ports false true sAddu).dmemWe = false) ∧
    (∃ t, clockEdge false true sSw = .next t) ∧
    ((ports false true sSw).dmemWe = true ∧ (ports false true sSw).dmemAddr = some 31#32 ∧
      (ports false true sSw).dmemWdata = some 7#32 ∧ (ports false true sSw).rfWe = false) :=
  ⟨⟨_, rfl⟩, by decide, ⟨_, rfl⟩, by decide⟩
theorem witness_TrapPulsesOnceThenLatches :
    stepReport sLwOut = some (.segfault, 0x20#32) ∧ stepReport sZero = some (.unkop, 0#32) := by decide
theorem witness_ProgramNeverChanges : ∃ t, runFor 2 sSw = .next t := ⟨_, rfl⟩
theorem witness_HaltedAndTrapRecordAreSticky :
    (∃ t, step sTrapped = .next t) ∧ sTrapped.halted = true ∧ sTrapped.Inv ∧ sTrapped.trapKind = some .unkop :=
  ⟨⟨_, rfl⟩, by decide⟩
theorem witness_LoadReturnsTheLatestStore :
    Memory.wf sSw.mem = true ∧ sSw.memInBounds (basePlusImm (sSw.readReg 1) 0x1F#16) = true ∧
    ∃ t u, exec (.sw (2 : Fin 32).val (1 : Fin 32).val 0x1F#16) sSw = .next t ∧ exec (.sw 2 1 0#16) t = .next u ∧
      storeAddress (.sw 2 1 0#16) t ≠ some (basePlusImm (sSw.readReg 1) 0x1F#16) ∧
      basePlusImm (u.readReg 1) 0x1F#16 = basePlusImm (sSw.readReg 1) 0x1F#16 :=
  ⟨by decide, by decide, _, _, rfl, rfl, by decide, by decide⟩
theorem witness_CanonicalMemoriesAreDetermined :
    Memory.wf ([(0, 1#32), (31, 7#32)] : Memory 32) = true ∧
    ∀ a, Memory.read (Memory.write ([(0, 1#32)] : Memory 32) 31 7#32) a = Memory.read ([(0, 1#32), (31, 7#32)] : Memory 32) a :=
  ⟨by decide, fun _ => rfl⟩
theorem witness_TrapRecordIsNeverRead :
    (∃ t, runFor 1 sAddu = .next t) ∧ ∃ r, runFor 1 sMisaligned = .refused r := ⟨⟨_, rfl⟩, _, rfl⟩
theorem witness_IgnoredBitsDoNotMatter :
    (opcodeField 0x00221821#32 = 0x00#6 ∧ opcodeField 0x00221FE1#32 = 0x00#6 ∧
      rsField 0x00221821#32 = rsField 0x00221FE1#32 ∧ rtField 0x00221821#32 = rtField 0x00221FE1#32 ∧
      rdField 0x00221821#32 = rdField 0x00221FE1#32 ∧ functField 0x00221821#32 = functField 0x00221FE1#32) ∧
    opcodeField 0xFC000000#32 = 0x3F#6 ∧ opcodeField 0xFFFFFFFF#32 = 0x3F#6 := by decide
theorem witness_HaltIsNotATrap :
    (sHalt.halted = false ∧ sHalt.trapKind = none ∧ (after (step sHalt)).map State.halted = some true) ∧
    (sZero.halted = false ∧ sZero.trapKind = none ∧ (after (step sZero)).map State.halted = some true) := by decide
theorem witness_OnlyMisalignedPcIsRefused :
    step sMisaligned = .refused .misalignedPc ∧ sMisaligned.halted = false ∧ sMisaligned.pc.toNat % 4 ≠ 0 ∧
    sTrapped.halted = true := ⟨rfl, by decide, by decide, by decide⟩
theorem witness_LoadedWordRunsNext :
    State.reset.halted = false ∧ State.reset.pc.toNat % 4 = 0 ∧ Memory.wf State.reset.params.imem = true ∧
    0xFFFFFFFF < 2 ^ 32 := by decide
theorem witness_SelfBranchNeverHalts :
    (sLoop.Fetching ∧ decodeWord (sLoop.ifetch sLoop.pc) = .ok (.beq 1 1 0xFFFF#16)) ∧
    (let s : State := at_ 0#32 0x13FFFFFF#32
     s.Fetching ∧ decodeWord (s.ifetch s.pc) = .ok (.beq 31 31 0xFFFF#16)) := by decide
/-- The cycle of a `lw` out of bounds, and of a `sw` with no step requested, show the ports of R131 all the same. -/
theorem witness_AddressPortsFollowTheFetchedWord :
    (sAddu.pc.toNat % 4 = 0 ∧ sAddu.pc.toNat < sAddu.imemBytes ∧ opcodeField (sAddu.ifetch sAddu.pc) = 0x00#6 ∧
      (ports false false sAddu).rfWaddr = some 3#5) ∧
    (sLwOut.pc.toNat % 4 = 0 ∧ sLwOut.pc.toNat < sLwOut.imemBytes ∧ opcodeField (sLwOut.ifetch sLwOut.pc) = 0x23#6 ∧
      (ports false true sLwOut).rfWaddr = some 2#5 ∧ (ports false true sLwOut).dmemWdata = some 0x55#32 ∧
      (ports false true sLwOut).dmemAddr = some 0x20#32 ∧ (ports false true sLwOut).rfWe = false) ∧
    (sSwOut.pc.toNat % 4 = 0 ∧ sSwOut.pc.toNat < sSwOut.imemBytes ∧ opcodeField (sSwOut.ifetch sSwOut.pc) = 0x2B#6 ∧
      (ports false false sSwOut).dmemWdata = some 7#32 ∧ (ports false false sSwOut).dmemWe = false) := by decide

end Sys2Proof.Tests
end

section
/-! Big-endian assembly of a fetched word as a number (R32), and the parameters along a run (R43). -/

namespace Sys2Proof

/-- Appending a byte puts it below the bits that are there: they count 256 times as much. -/
theorem toNat_append_byte {w : Nat} (x : BitVec w) (b : Byte) : (x ++ b).toNat = x.toNat * 2 ^ 8 + b.toNat := by
  rw [BitVec.toNat_append, ← Nat.shiftLeft_add_eq_or_of_lt b.isLt, Nat.shiftLeft_eq]

/-- The assembled word is the weighted sum of its bytes, the first the most significant (R32). -/
theorem toNat_assemble (b0 b1 b2 b3 : Byte) :
    (assemble b0 b1 b2 b3).toNat = b0.toNat * 2 ^ 24 + b1.toNat * 2 ^ 16 + b2.toNat * 2 ^ 8 + b3.toNat := by
  simp only [assemble, toNat_append_byte]
  omega

end Sys2Proof

namespace Sys2Proof.Machine

/-- No step changes the parameters, the instruction store among them (R43). -/
theorem step_params {s t : State} (h : step s = .next t) : t.params = s.params := by
  rcases step_cases h with ⟨-, rfl⟩ | ⟨-, rfl | ⟨_, e, -, -, rfl⟩ | ⟨c, rfl⟩⟩
  · rfl
  · exact s.halt_params
  · exact s.apply_params e
  · exact s.takeTrap_params c

/-- No run changes the parameters (R43). -/
theorem runFor_params {n : Nat} {s t : State} (h : runFor n s = .next t) : t.params = s.params :=
  runFor_keeps (P := fun u => u.params = s.params) (fun _ _ hu hstep => (step_params hstep).trans hu) rfl h

end Sys2Proof.Machine

namespace Sys2Proof

/-- Settles O30: the fetch assembles the four bytes of the store, and an assembled word is their weighted sum. -/
theorem fetchIsBigEndian : Obligations.FetchIsBigEndian :=
  fun _ _ => toNat_assemble _ _ _ _

/-- Settles O45: every run keeps the parameters, and the fetch reads nothing else of the state. -/
theorem programNeverChanges : Obligations.ProgramNeverChanges := by
  intro n s t h
  have hp : t.params = s.params := Machine.runFor_params h
  exact ⟨hp, Machine.State.ifetch_congr hp⟩

end Sys2Proof
end

section
/-! The fields of a word as numbers (R51, R52), the words that are no instruction (R60, R61), and the step that fetches one
(R144). -/

namespace Sys2Proof

/-! ### Fields as numbers -/

/-- A range of bits as a number: a quotient and a remainder by powers of 2. -/
theorem toNat_extractLsb'_eq_div_mod {n : Nat} (lo width : Nat) (w : BitVec n) :
    (w.extractLsb' lo width).toNat = w.toNat / 2 ^ lo % 2 ^ width := by
  rw [BitVec.extractLsb'_toNat, Nat.shiftRight_eq_div_pow]

/-- The opcode has no bits above it, so it needs no remainder. -/
theorem toNat_opcodeField (w : Word) : (opcodeField w).toNat = w.toNat / 2 ^ 26 := by
  have hw : w.toNat < 2 ^ 32 := w.isLt
  rw [opcodeField, toNat_extractLsb'_eq_div_mod]
  exact Nat.mod_eq_of_lt (by omega)

theorem toNat_rsField (w : Word) : (rsField w).toNat = w.toNat / 2 ^ 21 % 2 ^ 5 :=
  toNat_extractLsb'_eq_div_mod 21 5 w

theorem toNat_rtField (w : Word) : (rtField w).toNat = w.toNat / 2 ^ 16 % 2 ^ 5 :=
  toNat_extractLsb'_eq_div_mod 16 5 w

theorem toNat_rdField (w : Word) : (rdField w).toNat = w.toNat / 2 ^ 11 % 2 ^ 5 :=
  toNat_extractLsb'_eq_div_mod 11 5 w

theorem toNat_shamtField (w : Word) : (shamtField w).toNat = w.toNat / 2 ^ 6 % 2 ^ 5 :=
  toNat_extractLsb'_eq_div_mod 6 5 w

/-- The funct starts at bit 0, so it needs no quotient. -/
theorem toNat_functField (w : Word) : (functField w).toNat = w.toNat % 2 ^ 6 := by
  rw [functField, toNat_extractLsb'_eq_div_mod, Nat.pow_zero, Nat.div_one]

/-- The immediate starts at bit 0, so it needs no quotient. -/
theorem toNat_immField (w : Word) : (immField w).toNat = w.toNat % 2 ^ 16 := by
  rw [immField, toNat_extractLsb'_eq_div_mod, Nat.pow_zero, Nat.div_one]

/-- The immediate covers the bits of `rd`, `shamt` and `funct` (R51, R52). -/
theorem toNat_immField_eq_sum (w : Word) :
    (immField w).toNat = (rdField w).toNat * 2 ^ 11 + (shamtField w).toNat * 2 ^ 6 + (functField w).toNat := by
  rw [toNat_immField, toNat_rdField, toNat_shamtField, toNat_functField]
  omega

/-- A word is the weighted sum of its I-shape fields (R52). -/
theorem toNat_eq_sum_iFields (w : Word) :
    w.toNat = (opcodeField w).toNat * 2 ^ 26 + (rsField w).toNat * 2 ^ 21 + (rtField w).toNat * 2 ^ 16 +
      (immField w).toNat := by
  rw [toNat_opcodeField, toNat_rsField, toNat_rtField, toNat_immField]
  omega

/-- A word is the weighted sum of its R-shape fields (R51): the I-shape sum with the immediate split further. -/
theorem toNat_eq_sum_rFields (w : Word) :
    w.toNat = (opcodeField w).toNat * 2 ^ 26 + (rsField w).toNat * 2 ^ 21 + (rtField w).toNat * 2 ^ 16 +
      (rdField w).toNat * 2 ^ 11 + (shamtField w).toNat * 2 ^ 6 + (functField w).toNat := by
  rw [toNat_eq_sum_iFields w, toNat_immField_eq_sum w, ← Nat.add_assoc, ← Nat.add_assoc]

/-! ### Words that are no instruction -/

/-- An R-shape word whose funct has no entry decodes to the funct cause (R60). -/
theorem decodeWord_of_unsupportedFunct {w : Word} (ho : opcodeField w = 0x00#6)
    (hf : functField w ∉ [0x21#6, 0x23#6, 0x24#6, 0x25#6, 0x27#6]) :
    decodeWord w = .error (.funct (functField w)) := by
  simp only [List.mem_cons, List.not_mem_nil, or_false, not_or] at hf
  obtain ⟨hAddu, hSubu, hAnd, hOr, hNor⟩ := hf
  rw [decodeWord_rShape ho, select, if_neg hAddu, if_neg hSubu, if_neg hAnd, if_neg hOr, if_neg hNor]

/-- A word whose opcode has no entry decodes to the opcode cause: the classifier answers I-shape, and no I-shape row has
the opcode (R61). -/
theorem decodeWord_of_unsupportedOpcode {w : Word}
    (ho : opcodeField w ∉ [0x00#6, 0x02#6, 0x04#6, 0x09#6, 0x23#6, 0x2B#6, 0x3F#6]) :
    decodeWord w = .error (.opcode (opcodeField w)) := by
  simp only [List.mem_cons, List.not_mem_nil, or_false, not_or] at ho
  obtain ⟨hR, hJ, hBeq, hAddiu, hLw, hSw, hHalt⟩ := ho
  rw [decodeWord_iShape hR hJ hHalt, select, if_neg hAddiu, if_neg hBeq, if_neg hLw, if_neg hSw]

end Sys2Proof

namespace Sys2Proof.Machine

/-! ### The step of a Fetching core -/

/-- A Fetching core passes the checks that a step makes before it runs a word (R70, R71). -/
theorem State.fetching_checks {s : State} (h : s.Fetching) :
    s.halted = false ∧ s.pcAligned = true ∧ s.fetchInRange = true := by
  obtain ⟨hrun, haligned, hrange⟩ := h
  exact ⟨hrun, decide_eq_true haligned, decide_eq_true hrange⟩

/-- A Fetching core runs the word at `pc` (R70). -/
theorem step_of_fetching {s : State} (h : s.Fetching) : step s = runWord (s.ifetch s.pc) s := by
  obtain ⟨hrun, haligned, hrange⟩ := State.fetching_checks h
  exact step_of_running hrun haligned hrange

/-- The activity of a Fetching core is that of the word at `pc`. -/
theorem activity_of_fetching {s : State} (h : s.Fetching) : activity s = wordActivity (s.ifetch s.pc) s := by
  obtain ⟨hrun, haligned, hrange⟩ := State.fetching_checks h
  simp [activity, hrun, haligned, hrange]

/-- Both causes of a word that is no instruction are of kind UNKOP (R140). -/
@[simp] theorem unkopTrap_kind (c : UnkopCause) : (unkopTrap c).kind = .unkop := by
  cases c <;> rfl

/-- A Fetching core whose word is no instruction takes the UNKOP trap (R144). -/
theorem step_of_unkop {s : State} {c : UnkopCause} (h : s.Fetching) (hd : decodeWord (s.ifetch s.pc) = .error c) :
    step s = .next (s.takeTrap (unkopTrap c)) := by
  rw [step_of_fetching h, runWord, hd]

/-- A Fetching core whose word is no instruction reports UNKOP at `pc` (R144, R147). -/
theorem stepReport_of_unkop {s : State} {c : UnkopCause} (h : s.Fetching)
    (hd : decodeWord (s.ifetch s.pc) = .error c) : stepReport s = some (.unkop, s.pc) := by
  have hact : activity s = .traps (unkopTrap c) := by
    rw [activity_of_fetching h, wordActivity, hd]
  simp [stepReport, hact, Activity.trap]

end Sys2Proof.Machine

namespace Sys2Proof

/-- Settles O5: each field is a quotient and a remainder of the word, and the weighted sums put them together again. -/
theorem fieldsAreTheBitRanges : Obligations.FieldsAreTheBitRanges :=
  fun w => ⟨toNat_opcodeField w, toNat_rsField w, toNat_rtField w, toNat_rdField w, toNat_shamtField w,
    toNat_functField w, toNat_immField w, toNat_eq_sum_rFields w, toNat_eq_sum_iFields w, rfl, rfl⟩

/-- Settles O8: both kinds of word decode to an error, and a Fetching core turns the error into the UNKOP trap. -/
theorem unsupportedWordsTrapUnkop : Obligations.UnsupportedWordsTrapUnkop := by
  refine ⟨?_, by decide⟩
  rintro s w hs rfl hw
  obtain ⟨c, hc⟩ : ∃ c, decodeWord (s.ifetch s.pc) = .error c := by
    rcases hw with ⟨ho, hf⟩ | ho
    · exact ⟨_, decodeWord_of_unsupportedFunct ho hf⟩
    · exact ⟨_, decodeWord_of_unsupportedOpcode ho⟩
  exact ⟨Machine.stepReport_of_unkop hs hc, _, Machine.step_of_unkop hs hc, s.takeTrap_halted _, s.takeTrap_pc _,
    s.takeTrap_regs _, s.takeTrap_mem _, s.takeTrap_params _⟩

end Sys2Proof
end

section
/-! The classifier's test as a quotient (R73), and runs that stay where they are (R78). -/

namespace Sys2Proof

/-- The top six bits of a byte are its quotient by 4, so the classifier's test is one of numbers (R73). -/
theorem ushiftRight_two_eq_iff (b c : Byte) : b >>> 2 = c ↔ b.toNat / 4 = c.toNat := by
  rw [← BitVec.toNat_inj, BitVec.toNat_ushiftRight, Nat.shiftRight_eq_div_pow]

end Sys2Proof

namespace Sys2Proof.Machine

/-- A run from a state that steps to itself stays there. -/
theorem runFor_of_step_self {s : State} (h : step s = .next s) (n : Nat) : runFor n s = .next s := by
  induction n with
  | zero => exact runFor_zero s
  | succ n ih => exact (runFor_succ_of_next h).trans ih

/-- A Halted core is idle (R78). -/
theorem activity_of_halted {s : State} (h : s.halted = true) : activity s = .idle :=
  if_pos h

/-- A Halted core reports nothing (R78, R147). -/
theorem stepReport_of_halted {s : State} (h : s.halted = true) : stepReport s = none := by
  simp [stepReport, activity_of_halted h, Activity.trap]

end Sys2Proof.Machine

namespace Sys2Proof

/-- Settles O31: a Halted core is idle and steps to itself, so every run of it stays there. -/
theorem haltedStepsChangeNothing : Obligations.HaltedStepsChangeNothing := by
  intro s h
  have hstep : Machine.step s = .next s := Machine.step_of_halted h
  exact ⟨hstep, Machine.stepReport_of_halted h, Machine.runFor_of_step_self hstep⟩

/-- Settles O6: the classifier's chain of tests, each read as one of numbers. -/
theorem classifierFollowsTheOpcode : Obligations.ClassifierFollowsTheOpcode := by
  intro b
  simp only [classify, ushiftRight_two_eq_iff, BitVec.reduceToNat]

end Sys2Proof
end

section
/-! The words of an R-shape row (R51, R59), and what the five R-shape instructions do on registers that exist (R91 to R96). -/

namespace Sys2Proof

/-! ### Words of an R-shape row -/

/-- A word is its R-shape fields packed again (R51). -/
theorem word_eq_packR (w : Word) :
    w = packR (opcodeField w) (rsField w) (rtField w) (rdField w) (shamtField w) (functField w) := by
  apply BitVec.eq_of_getLsbD_eq
  intro i hi
  simp only [packR, opcodeField, rsField, rtField, rdField, shamtField, functField, BitVec.getLsbD_append,
    BitVec.getLsbD_extractLsb']
  interval_cases i <;> rfl

/-- A word has a row's opcode and funct bits exactly when those two fields are the row's (R59). -/
theorem and_functMask_eq (w : Word) (o f : BitVec 6) :
    w &&& 0xFC00003F#32 = packR o 0#5 0#5 0#5 0#5 f ↔ opcodeField w = o ∧ functField w = f := by
  have hmask : w &&& 0xFC00003F#32 = packR (opcodeField w) 0#5 0#5 0#5 0#5 (functField w) := by
    rw [← Laws.FixedBits.and_functMask, ← word_eq_packR]
  rw [hmask]
  constructor
  · intro h
    exact ⟨by simpa using congrArg opcodeField h, by simpa using congrArg functField h⟩
  · rintro ⟨rfl, rfl⟩; rfl

/-- A word with the fixed bits of an R-shape row is selected on the row's funct (R57, R59). -/
theorem decodeWord_of_functMask {w : Word} (f : BitVec 6)
    (h : w &&& 0xFC00003F#32 = packR 0x00#6 0#5 0#5 0#5 0#5 f) :
    decodeWord w = select (.r 0x00#6 (rsField w) (rtField w) (rdField w) (shamtField w) f) := by
  obtain ⟨hopcode, rfl⟩ := (and_functMask_eq w 0x00#6 f).mp h
  exact decodeWord_rShape hopcode

end Sys2Proof

namespace Sys2Proof.Machine

/-- An R-shape step on registers that exist writes the ALU's value to `rd`, advances `pc` by 4 and changes nothing else
(R96). -/
theorem finish_dispatchR (rd rs rt : Fin 32) (alu : Word → Word → Word) (s : State) :
    s.finish (dispatchR rd.val rs.val rt.val alu s) =
      .next (State.mk (s.pc + 4#32) s.halted s.trapKind
        (s.regs.set rd.val (alu s.regs[rs.val] s.regs[rt.val])) s.mem s.params) := by
  rw [dispatchR_val, State.finish_effect]
  rfl

end Sys2Proof.Machine

namespace Sys2Proof

/-! ### The five instructions

Each is two facts that hold by definition once its funct and its ALU function are named: `select` on the funct answers the
instruction, and `exec` of it is `finish` of `dispatchR` with the ALU function. -/

/-- Settles O9: funct 0x21 selects `addu`, whose R-shape step has the ALU add. -/
theorem adduAddsRegisters : Obligations.AdduAddsRegisters :=
  ⟨fun _ h => decodeWord_of_functMask 0x21#6 h, fun rd rs rt _ s => Machine.finish_dispatchR rd rs rt Machine.aluAddu s⟩

/-- Settles O10: funct 0x23 selects `subu`, whose R-shape step has the ALU subtract `rt` from `rs`. -/
theorem subuSubtractsRegisters : Obligations.SubuSubtractsRegisters :=
  ⟨fun _ h => decodeWord_of_functMask 0x23#6 h, fun rd rs rt _ s => Machine.finish_dispatchR rd rs rt Machine.aluSubu s⟩

/-- Settles O11: funct 0x24 selects `and`, whose R-shape step has the ALU intersect the bits. -/
theorem andIntersectsBits : Obligations.AndIntersectsBits :=
  ⟨fun _ h => decodeWord_of_functMask 0x24#6 h, fun rd rs rt _ s => Machine.finish_dispatchR rd rs rt Machine.aluAnd s⟩

/-- Settles O12: funct 0x25 selects `or`, whose R-shape step has the ALU unite the bits. -/
theorem orUnitesBits : Obligations.OrUnitesBits :=
  ⟨fun _ h => decodeWord_of_functMask 0x25#6 h, fun rd rs rt _ s => Machine.finish_dispatchR rd rs rt Machine.aluOr s⟩

/-- Settles O13: funct 0x27 selects `nor`, whose R-shape step has the ALU complement the union. -/
theorem norComplementsTheUnion : Obligations.NorComplementsTheUnion :=
  ⟨fun _ h => decodeWord_of_functMask 0x27#6 h, fun rd rs rt _ s => Machine.finish_dispatchR rd rs rt Machine.aluNor s⟩

end Sys2Proof
end

section
/-! The words of an I-shape row (R52, R59), and what the dispatcher answers for the four I-shape instructions on
registers that exist (R101 to R104). -/

namespace Sys2Proof

/-- A word with the opcode bits of an I-shape row is selected on the row's opcode (R57, R59). -/
theorem decodeWord_of_opcodeMask {w : Word} {o : BitVec 6} (ho : o ∉ [0x00#6, 0x02#6, 0x3F#6])
    (h : w &&& 0xFC000000#32 = packJ o 0#26) :
    decodeWord w = select (.i o (rsField w) (rtField w) (immField w)) := by
  obtain rfl := (and_opcodeMask_eq w o).mp h
  simp only [List.mem_cons, List.not_mem_nil, or_false, not_or] at ho
  obtain ⟨hR, hJ, hHalt⟩ := ho
  exact decodeWord_iShape hR hJ hHalt

end Sys2Proof

namespace Sys2Proof.Machine

/-! ### From the dispatcher's answer to the step -/

section
variable {i : Instr} {s : State}

/-- An instruction whose dispatch is an Effect applies it (R70). -/
theorem exec_of_effect {e : Effect} (h : dispatchOf i s = some (.effect e)) : exec i s = .next (s.apply e) := by
  rw [exec_eq_dispatchOf, h]
  exact s.finish_effect e

/-- An instruction whose dispatch raises a trap takes it (R146). -/
theorem exec_of_raise {c : TrapCause} (h : dispatchOf i s = some (.raise c)) : exec i s = .next (s.takeTrap c) := by
  rw [exec_eq_dispatchOf, h]
  exact s.finish_raise c

/-- A Fetching core whose word decodes to an instruction that raises a trap reports the trap's kind at `pc` (R147). -/
theorem stepReport_of_raise {c : TrapCause} (hs : s.Fetching) (hi : decodeWord (s.ifetch s.pc) = .ok i)
    (h : dispatchOf i s = some (.raise c)) : stepReport s = some (c.kind, s.pc) := by
  have hact : activity s = .traps c := by
    rw [activity_of_fetching hs, wordActivity, hi]
    simp only [h]
  simp [stepReport, hact, Activity.trap]

/-- A data address out of bounds halts the core, changes nothing else the program can see, and is reported as SEGFAULT
(R143, R146). -/
theorem memoryAddress_trap (h : dispatchOf i s = some (.raise .memoryAddress)) :
    (∃ t, exec i s = .next t ∧ t.halted = true ∧
      t.pc = s.pc ∧ t.regs = s.regs ∧ t.mem = s.mem ∧ t.params = s.params) ∧
    (s.Fetching → decodeWord (s.ifetch s.pc) = .ok i → stepReport s = some (.segfault, s.pc)) :=
  ⟨⟨_, exec_of_raise h, s.takeTrap_halted _, s.takeTrap_pc _, s.takeTrap_regs _, s.takeTrap_mem _,
    s.takeTrap_params _⟩, fun hs hi => stepReport_of_raise hs hi h⟩

end

/-! ### The dispatcher's answers -/

section
variable (rs rt : Fin 32) (imm : BitVec 16) {s : State}

/-- `addiu` dispatches one register write (R101). -/
theorem dispatchOf_addiu :
    dispatchOf (.addiu rt.val rs.val imm) s =
      some (.effect (.registerWrite rt (basePlusImm (s.readReg rs) imm))) :=
  congrArg some (dispatchI_val rs rt _)

/-- `beq` on equal registers dispatches the branch (R102). -/
theorem dispatchOf_beq_of_eq (h : s.readReg rt = s.readReg rs) :
    dispatchOf (.beq rs.val rt.val imm) s = some (.effect (.pcAdjust (.relative16 (sext16 imm)))) := by
  rw [dispatchOf, dispatchBeq, dispatchI_val, if_pos ((branchCondition_iff _ _).mpr h)]

/-- `beq` on different registers dispatches a no-op (R102). -/
theorem dispatchOf_beq_of_ne (h : s.readReg rt ≠ s.readReg rs) :
    dispatchOf (.beq rs.val rt.val imm) s = some (.effect .noOp) := by
  rw [dispatchOf, dispatchBeq, dispatchI_val, if_neg (mt (branchCondition_iff _ _).mp h)]

/-- `lw` in bounds dispatches a write of the word at the address to `rt` (R103). -/
theorem dispatchOf_lw_inBounds (h : s.memInBounds (basePlusImm (s.readReg rs) imm) = true) :
    dispatchOf (.lw rt.val rs.val imm) s =
      some (.effect (.registerWrite rt (s.memRead (basePlusImm (s.readReg rs) imm)))) := by
  rw [dispatchOf, dispatchLw, dispatchI_val, if_pos h]

/-- `lw` out of bounds raises the data-address trap (R103, R143). -/
theorem dispatchOf_lw_outOfBounds (h : ¬ s.memInBounds (basePlusImm (s.readReg rs) imm) = true) :
    dispatchOf (.lw rt.val rs.val imm) s = some (.raise .memoryAddress) := by
  rw [dispatchOf, dispatchLw, dispatchI_val, if_neg h]

/-- `sw` in bounds dispatches a write of `x[rt]` to the word at the address (R104). -/
theorem dispatchOf_sw_inBounds (h : s.memInBounds (basePlusImm (s.readReg rs) imm) = true) :
    dispatchOf (.sw rt.val rs.val imm) s =
      some (.effect (.memoryWrite (basePlusImm (s.readReg rs) imm) (s.readReg rt))) := by
  rw [dispatchOf, dispatchSw, dispatchI_val, if_pos h]

/-- `sw` out of bounds raises the data-address trap (R104, R143). -/
theorem dispatchOf_sw_outOfBounds (h : ¬ s.memInBounds (basePlusImm (s.readReg rs) imm) = true) :
    dispatchOf (.sw rt.val rs.val imm) s = some (.raise .memoryAddress) := by
  rw [dispatchOf, dispatchSw, dispatchI_val, if_neg h]

end

/-- The data bounds check compares the address with `MEM_WORDS` as numbers (R38). -/
theorem State.memInBounds_iff (s : State) (addr : Word) :
    s.memInBounds addr = true ↔ addr.toNat < s.params.memWords.val :=
  decide_eq_true_iff

/-- The data bounds check fails exactly from `MEM_WORDS` on (R38). -/
theorem State.not_memInBounds_iff (s : State) (addr : Word) :
    ¬ s.memInBounds addr = true ↔ s.params.memWords.val ≤ addr.toNat := by
  rw [State.memInBounds_iff, not_lt]

/-- `beq` moves `pc` to the branch target when the registers are equal and to `pc + 4` otherwise, and changes nothing
else (R102). -/
theorem exec_beq (rs rt : Fin 32) (imm : BitVec 16) (s : State) :
    exec (.beq rs.val rt.val imm) s =
      .next (State.mk
        (if s.readReg rt = s.readReg rs then branchTarget s.pc (sext16 imm) else nextPc s.pc)
        s.halted s.trapKind s.regs s.mem s.params) := by
  split
  case isTrue h => exact exec_of_effect (dispatchOf_beq_of_eq rs rt imm h)
  case isFalse h => exact exec_of_effect (dispatchOf_beq_of_ne rs rt imm h)

end Sys2Proof.Machine

namespace Sys2Proof

/-! ### The four instructions

The first part of each is `select` on the row's opcode, which answers the instruction by definition. -/

/-- Settles O16: opcode 0x09 selects `addiu`, whose dispatch is a write of `rs` plus the sign-extended immediate. -/
theorem addiuAddsSignExtendedImmediate : Obligations.AddiuAddsSignExtendedImmediate :=
  ⟨fun _ h => decodeWord_of_opcodeMask (o := 0x09#6) (by decide) h,
    fun rt rs imm _ => Machine.exec_of_effect (Machine.dispatchOf_addiu rs rt imm)⟩

/-- Settles O17: opcode 0x04 selects `beq`, and both of its `pc` values keep the alignment. -/
theorem beqBranchesWhenEqual : Obligations.BeqBranchesWhenEqual := by
  refine ⟨fun _ h => decodeWord_of_opcodeMask (o := 0x04#6) (by decide) h, Machine.exec_beq, ?_, ?_⟩
  · intro r imm s
    exact ⟨_, Machine.exec_beq r r imm s, if_pos rfl⟩
  · intro rs rt imm s haligned
    refine ⟨_, Machine.exec_beq rs rt imm s, ?_⟩
    dsimp only
    split
    · exact Machine.branchTarget_aligned haligned _
    · exact Machine.nextPc_aligned haligned

/-- Settles O18: opcode 0x23 selects `lw`, whose dispatch the bounds check on the address decides. -/
theorem lwLoadsTheWordAtItsIndex : Obligations.LwLoadsTheWordAtItsIndex := by
  refine ⟨fun _ h => decodeWord_of_opcodeMask (o := 0x23#6) (by decide) h, ?_, ?_⟩
  · intro rt rs imm s hin
    exact Machine.exec_of_effect (Machine.dispatchOf_lw_inBounds rs rt imm ((s.memInBounds_iff _).mpr hin))
  · intro rt rs imm s hout
    exact Machine.memoryAddress_trap (Machine.dispatchOf_lw_outOfBounds rs rt imm ((s.not_memInBounds_iff _).mpr hout))

/-- Settles O19: opcode 0x2B selects `sw`, whose dispatch the bounds check on the address decides; what the store reads
afterwards is the law of read after write. -/
theorem swStoresTheWordAtItsIndex : Obligations.SwStoresTheWordAtItsIndex := by
  refine ⟨fun _ h => decodeWord_of_opcodeMask (o := 0x2B#6) (by decide) h, ?_, ?_⟩
  · intro rt rs imm s hin
    exact ⟨_, Machine.exec_of_effect (Machine.dispatchOf_sw_inBounds rs rt imm ((s.memInBounds_iff _).mpr hin)),
      fun hwf => Machine.Memory.read_write_same hwf _ _, fun _ hb => Machine.Memory.read_write_other s.mem hb _⟩
  · intro rt rs imm s hout
    exact Machine.memoryAddress_trap (Machine.dispatchOf_sw_outOfBounds rs rt imm ((s.not_memInBounds_iff _).mpr hout))

end Sys2Proof
end

section
/-! The words of `j` and HALT (R53, R59), the jump target as a number (R110, R124), and the step that fetches a HALT
(R111). -/

namespace Sys2Proof

/-- No Decoded Instruction selects HALT: the classifier alone settles it (R111). -/
theorem select_ne_halt (d : Decoded) (b : BitVec 26) : select d ≠ .ok (.halt b) := by
  intro h
  cases d with
  | r | i | j =>
    simp only [select] at h
    repeat' split at h
    all_goals cases h

/-- A word decodes to HALT exactly when its opcode is 0x3F (R111). -/
theorem decodeWord_eq_halt_iff (w : Word) : decodeWord w = .ok (.halt (addressField w)) ↔ opcodeField w = 0x3F#6 := by
  refine ⟨fun h => ?_, decodeWord_haltShape⟩
  by_contra hHalt
  by_cases hR : opcodeField w = 0x00#6
  · exact select_ne_halt _ _ (decodeWord_rShape hR ▸ h)
  by_cases hJ : opcodeField w = 0x02#6
  · rw [decodeWord_jShape hJ] at h; cases h
  exact select_ne_halt _ _ (decodeWord_iShape hR hJ hHalt ▸ h)

end Sys2Proof

namespace Sys2Proof.Machine

/-! ### The jump target -/

/-- The address in words is one in bytes, four times as much; it fits in 28 bits (R55). -/
theorem toNat_address_shift (address : BitVec 26) : (address.setWidth 32 <<< 2).toNat = address.toNat * 4 := by
  have ha : address.toNat < 2 ^ 26 := address.isLt
  simp only [BitVec.toNat_shiftLeft, BitVec.toNat_setWidth, Nat.shiftLeft_eq]
  omega

/-- The mask on the shifted address clears nothing, so the target is R110's `((pc + 4) & 0xF0000000) | (address << 2)`. -/
theorem jumpTarget_eq (pc : Word) (address : BitVec 26) :
    jumpTarget pc address = ((pc + 4#32) &&& 0xF0000000#32) ||| (address.setWidth 32 <<< 2) := by
  have hmask : address.setWidth 32 <<< 2 &&& 0x0FFFFFFF#32 = address.setWidth 32 <<< 2 := by
    apply BitVec.eq_of_toNat_eq
    have ha : address.toNat < 2 ^ 26 := address.isLt
    rw [BitVec.toNat_and, toNat_address_shift]
    exact (Nat.and_two_pow_sub_one_eq_mod _ 28).trans (Nat.mod_eq_of_lt (by omega))
  rw [jumpTarget, hmask, nextPc]

/-- The segment mask keeps the four high bits where they are. -/
theorem and_segmentMask (x : Word) : x &&& 0xF0000000#32 = x >>> 28 <<< 28 := by
  apply BitVec.eq_of_getLsbD_eq
  intro i hi
  simp only [BitVec.getLsbD_and, BitVec.getLsbD_shiftLeft, BitVec.getLsbD_ushiftRight]
  interval_cases i <;> simp

/-- The target is the segment of `pc + 4` plus the address in bytes (R110). -/
theorem toNat_jumpTarget (pc : Word) (address : BitVec 26) :
    (jumpTarget pc address).toNat = (pc + 4#32).toNat / 2 ^ 28 * 2 ^ 28 + address.toNat * 4 := by
  have ha : address.toNat < 2 ^ 26 := address.isLt
  have hsegment : ((pc + 4#32) >>> 28 <<< 28).toNat = ((pc + 4#32).toNat / 2 ^ 28) <<< 28 := by
    have hx : (pc + 4#32).toNat < 2 ^ 32 := (pc + 4#32).isLt
    rw [BitVec.toNat_shiftLeft, BitVec.toNat_ushiftRight, Nat.shiftRight_eq_div_pow, Nat.shiftLeft_eq]
    exact Nat.mod_eq_of_lt (by omega)
  rw [jumpTarget_eq, and_segmentMask, BitVec.toNat_or, hsegment, toNat_address_shift,
    ← Nat.shiftLeft_add_eq_or_of_lt (show address.toNat * 4 < 2 ^ 28 by omega), Nat.shiftLeft_eq]

/-- `j` moves `pc` to the jump target and changes nothing else (R110). -/
theorem exec_j (address : BitVec 26) (s : State) :
    exec (.j address) s =
      .next (State.mk (jumpTarget s.pc address) s.halted s.trapKind s.regs s.mem s.params) :=
  exec_of_effect (e := .pcAdjust (.absolute26 address)) rfl

/-! ### The step that fetches a HALT -/

/-- A Fetching core whose word is an instruction does what the instruction means (R70). -/
theorem step_of_decoded {s : State} {i : Instr} (h : s.Fetching) (hd : decodeWord (s.ifetch s.pc) = .ok i) :
    step s = exec i s := by
  rw [step_of_fetching h, runWord, hd]

/-- A Fetching core whose word is HALT reports nothing (R111, R147). -/
theorem stepReport_of_halt {s : State} {b : BitVec 26} (h : s.Fetching)
    (hd : decodeWord (s.ifetch s.pc) = .ok (.halt b)) : stepReport s = none := by
  have hact : activity s = .stops := by
    rw [activity_of_fetching h, wordActivity, hd]
    rfl
  simp [stepReport, hact, Activity.trap]

/-- A run that starts with a HALT word stays in the halted state, however long it is (R78, R111). -/
theorem runFor_of_halt {s : State} {b : BitVec 26} (h : s.Fetching)
    (hd : decodeWord (s.ifetch s.pc) = .ok (.halt b)) (n : Nat) : runFor (n + 1) s = .next s.halt := by
  have hstep : step s = .next s.halt := step_of_decoded h hd
  exact (runFor_succ_of_next hstep).trans (runFor_of_step_self (step_of_halted s.halt_halted) n)

end Sys2Proof.Machine

namespace Sys2Proof

/-- Settles O25: opcode 0x02 selects `j`, and the jump target is a segment and an address that share no bits. -/
theorem jumpsWithinTheSegment : Obligations.JumpsWithinTheSegment := by
  refine ⟨fun w h => decodeWord_jShape ((and_opcodeMask_eq w 0x02#6).mp h), ?_, ?_⟩
  · intro address s
    rw [Machine.exec_j, Machine.jumpTarget_eq]
  · intro address s
    exact ⟨_, Machine.exec_j address s, Machine.toNat_jumpTarget s.pc address, Machine.jumpTarget_aligned s.pc address⟩

/-- Settles O26: only opcode 0x3F decodes to HALT, and a core that has fetched one is Halted from then on. -/
theorem haltStopsTheCore : Obligations.HaltStopsTheCore := by
  refine ⟨fun w => (and_opcodeMask_eq w 0x3F#6).trans (decodeWord_eq_halt_iff w).symm, fun _ _ => rfl, ?_⟩
  intro s hs hw
  have hd := decodeWord_haltShape ((and_opcodeMask_eq _ 0x3F#6).mp hw)
  exact ⟨Machine.stepReport_of_halt hs hd, Machine.runFor_of_halt hs hd⟩

end Sys2Proof
end

section
/-! The application of an Effect (R120 to R125), a step as all or nothing (R127), and the `pc` update policy (R128). -/

namespace Sys2Proof

/-- The indices an instruction references are the first register fields of its word: none, `rs` and `rt`, or all three
(R21, R56). -/
theorem decodeWord_regIndices {w : Word} {i : Instr} (h : decodeWord w = .ok i) :
    i.regIndices <+: [(rsField w).toNat, (rtField w).toNat, (rdField w).toNat] := by
  rw [decodeWord] at h
  cases hshape : classify (firstByte w) with
  | halt => rw [hshape] at h; cases h; exact List.nil_prefix
  | r | i | j =>
    simp only [hshape, decodeFields, select] at h
    repeat' split at h
    all_goals cases h
    all_goals simp [Instr.regIndices]

/-- The two indices of an I-shape instruction are the `rs` and `rt` fields of its word (R52, R56). -/
theorem eq_fields_of_regIndices_pair {w : Word} {i : Instr} {rs rt : Nat} (h : decodeWord w = .ok i)
    (hi : i.regIndices = [rs, rt]) : rs = (rsField w).toNat ∧ rt = (rtField w).toNat := by
  have hfields := decodeWord_regIndices h
  simp only [hi, List.cons_prefix_cons] at hfields
  obtain ⟨hrs, hrt, -⟩ := hfields
  exact ⟨hrs, hrt⟩

/-- The three indices of an R-shape instruction are the `rs`, `rt` and `rd` fields of its word (R51, R56). -/
theorem eq_fields_of_regIndices_triple {w : Word} {i : Instr} {rs rt rd : Nat} (h : decodeWord w = .ok i)
    (hi : i.regIndices = [rs, rt, rd]) :
    rs = (rsField w).toNat ∧ rt = (rtField w).toNat ∧ rd = (rdField w).toNat := by
  have hfields := decodeWord_regIndices h
  simp only [hi, List.cons_prefix_cons] at hfields
  obtain ⟨hrs, hrt, hrd, -⟩ := hfields
  exact ⟨hrs, hrt, hrd⟩

end Sys2Proof

namespace Sys2Proof.Machine

/-! ### What an applied Effect may change -/

section
variable {s : State} {e : Effect}

/-- An Effect that changes a register is the write of that register (R121). -/
theorem State.readReg_apply_ne {r : Fin 32} (h : (s.apply e).readReg r ≠ s.readReg r) :
    ∃ v, e = .registerWrite r v := by
  rcases s.apply_changes_one e with ⟨hregs, -⟩ | ⟨i, v, rfl, -, -⟩ | ⟨_, _, -, hregs, -⟩
  · exact absurd (State.readReg_congr hregs r) h
  · by_cases hr : r = i
    · exact ⟨v, hr ▸ rfl⟩
    · exact absurd (s.readReg_writeReg_other hr v) h
  · exact absurd (State.readReg_congr hregs r) h

/-- An Effect that changes a word of memory is the write of that word (R122). -/
theorem State.read_apply_mem_ne {b : Nat} (h : Memory.read (s.apply e).mem b ≠ Memory.read s.mem b) :
    ∃ a v, e = .memoryWrite a v ∧ b = a.toNat := by
  rcases s.apply_changes_one e with ⟨-, hmem⟩ | ⟨_, _, -, hmem, -⟩ | ⟨a, v, rfl, -, hmem⟩
  · exact absurd (by rw [hmem]) h
  · exact absurd (by rw [hmem]) h
  · refine ⟨a, v, rfl, ?_⟩
    by_contra hb
    exact h (Memory.read_write_other s.mem hb v)

/-- No Effect changes both a register and a word of memory (R127). -/
theorem State.apply_keeps_regs_or_mem : (s.apply e).regs = s.regs ∨ (s.apply e).mem = s.mem := by
  rcases s.apply_changes_one e with ⟨hregs, -⟩ | ⟨_, _, -, hmem, -⟩ | ⟨_, _, -, hregs, -⟩
  · exact .inl hregs
  · exact .inr hmem
  · exact .inl hregs

end

/-! ### A step, by the state it leads to -/

section
variable {s t : State}

/-- A step to a Halted state keeps `pc`, registers and memory; a step to a Running one applies the Effect of the fetched
word's instruction (R127). -/
theorem step_keeps_or_applies (h : step s = .next t) :
    (t.halted = true ∧ t.pc = s.pc ∧ t.regs = s.regs ∧ t.mem = s.mem) ∨
    (t.halted = false ∧
      ∃ i e, decodeWord (s.ifetch s.pc) = .ok i ∧ dispatchOf i s = some (.effect e) ∧ t = s.apply e) := by
  rcases step_cases h with ⟨hhalted, rfl⟩ | ⟨hrun, rfl | ⟨i, e, hi, he, rfl⟩ | ⟨c, rfl⟩⟩
  · exact .inl ⟨hhalted, rfl, rfl, rfl⟩
  · exact .inl ⟨s.halt_halted, s.halt_pc, s.halt_regs, s.halt_mem⟩
  · exact .inr ⟨(s.apply_halted e).trans hrun, i, e, hi, he, rfl⟩
  · exact .inl ⟨s.takeTrap_halted c, s.takeTrap_pc c, s.takeTrap_regs c, s.takeTrap_mem c⟩

/-- A step keeps `pc` a multiple of 4 (R13, R128). -/
theorem step_pc_aligned (h : step s = .next t) (haligned : s.pc.toNat % 4 = 0) : t.pc.toNat % 4 = 0 := by
  rcases step_keeps_or_applies h with ⟨-, hpc, -, -⟩ | ⟨-, _, e, -, -, rfl⟩
  · rw [hpc]; exact haligned
  · exact s.apply_pc_aligned haligned e

/-- A Running core that steps to a next state has an aligned `pc`, since the step would be refused otherwise (R34). -/
theorem pcAligned_of_step (h : step s = .next t) (hrun : s.halted = false) : s.pcAligned = true := by
  by_contra ha
  rw [step_of_misaligned hrun (Bool.eq_false_of_not_eq_true ha)] at h
  cases h

end

/-! ### The `pc` after an instruction -/

section
variable {s t : State}

/-- An instruction that writes a register goes on to `pc + 4` (R121). -/
theorem exec_pc_of_registerWrite {i : Instr} {r : Fin 32} {v : Word} (h : exec i s = .next t)
    (hd : dispatchOf i s = some (.effect (.registerWrite r v))) : t.pc = s.pc + 4#32 := by
  rw [exec_of_effect hd] at h
  cases h
  rfl

/-- `beq` goes to the branch target when the registers are equal and to `pc + 4` otherwise (R102). -/
theorem exec_beq_pc (rs rt : Fin 32) (imm : BitVec 16) (h : exec (.beq rs.val rt.val imm) s = .next t) :
    t.pc = if s.readReg rs = s.readReg rt then s.pc + 4#32 + (imm.signExtend 32 <<< 2) else s.pc + 4#32 := by
  rw [exec_beq] at h
  cases h
  simp only [eq_comm (a := s.readReg rs), branchTarget, nextPc, sext16]

/-- An instruction that accesses the data memory goes on to `pc + 4` when its address is in bounds, and stays at `pc`
otherwise (R143). -/
theorem exec_pc_of_boundsCheck {i : Instr} {addr : Word} {e : Effect} (h : exec i s = .next t)
    (he : (s.apply e).pc = nextPc s.pc)
    (hin : s.memInBounds addr = true → dispatchOf i s = some (.effect e))
    (hout : ¬ s.memInBounds addr = true → dispatchOf i s = some (.raise .memoryAddress)) :
    t.pc = if s.memWords ≤ addr.toNat then s.pc else s.pc + 4#32 := by
  split
  case isTrue hb =>
    rw [exec_of_raise (hout ((s.not_memInBounds_iff addr).mpr hb))] at h
    cases h
    exact s.takeTrap_pc _
  case isFalse hb =>
    rw [exec_of_effect (hin ((s.memInBounds_iff addr).mpr (not_le.mp hb)))] at h
    cases h
    exact he

end

end Sys2Proof.Machine

namespace Sys2Proof

/-- Settles O34: a step either ends Halted with everything kept, or applies one Effect, and an Effect that changes a
register or a word is the dispatched write of it. -/
theorem stepIsAllOrNothing : Obligations.StepIsAllOrNothing := by
  intro s t h
  rcases Machine.step_keeps_or_applies h with ⟨hhalted, hpc, hregs, hmem⟩ | ⟨hrun, i, e, hi, he, rfl⟩
  · refine ⟨fun _ => ⟨hpc, hregs, hmem⟩, fun hrun => ?_, .inl hregs, fun r hr => ?_, fun b hb => ?_⟩
    · rw [hhalted] at hrun; cases hrun
    · exact absurd (Machine.State.readReg_congr hregs r) hr
    · exact absurd (by rw [hmem]) hb
  · refine ⟨fun hhalted => ?_, fun _ => ⟨i, e, hi, he, rfl⟩, Machine.State.apply_keeps_regs_or_mem, fun r hr => ?_,
      fun b hb => ?_⟩
    · rw [hrun] at hhalted; cases hhalted
    · obtain ⟨v, rfl⟩ := Machine.State.readReg_apply_ne hr
      exact ⟨i, hi, Machine.dispatchOf_registerWrite he⟩
    · obtain ⟨a, v, rfl, rfl⟩ := Machine.State.read_apply_mem_ne hb
      obtain ⟨hstore, hin⟩ := Machine.dispatchOf_memoryWrite he
      exact ⟨i, a, hi, hstore, rfl, (s.memInBounds_iff a).mp hin⟩

/-- Settles O35: the checks of a step in their order, then the instruction of the fetched word, whose register operands
are the word's fields. -/
theorem nextPcFollowsThePolicy : Obligations.NextPcFollowsThePolicy := by
  intro s t h
  refine ⟨?_, Machine.step_pc_aligned h⟩
  split
  case isTrue hhalted => rw [Machine.step_of_halted hhalted] at h; cases h; rfl
  case isFalse hhalted =>
  have hrun : s.halted = false := Bool.eq_false_of_not_eq_true hhalted
  have haligned := Machine.pcAligned_of_step h hrun
  split
  case isTrue hout =>
    rw [Machine.step_of_out_of_range hrun haligned (decide_eq_false (not_lt.mpr hout))] at h
    cases h
    rfl
  case isFalse hin =>
  have hs : s.Fetching := ⟨hrun, of_decide_eq_true haligned, not_le.mp hin⟩
  dsimp only
  cases hd : decodeWord (s.ifetch s.pc) with
  | error c => rw [Machine.step_of_unkop hs hd] at h; cases h; rfl
  | ok i =>
    rw [Machine.step_of_decoded hs hd] at h
    cases i with
    | addu | subu | and | or | nor =>
      obtain ⟨rfl, rfl, rfl⟩ := eq_fields_of_regIndices_triple hd rfl
      exact Machine.exec_pc_of_registerWrite h (congrArg some (Machine.dispatchR_val _ _ _ _ s))
    | addiu rt rs imm =>
      obtain ⟨rfl, rfl⟩ := eq_fields_of_regIndices_pair hd rfl
      exact Machine.exec_pc_of_registerWrite h (Machine.dispatchOf_addiu _ _ imm)
    | beq rs rt imm =>
      obtain ⟨rfl, rfl⟩ := eq_fields_of_regIndices_pair hd rfl
      exact Machine.exec_beq_pc _ _ imm h
    | lw rt rs imm =>
      obtain ⟨rfl, rfl⟩ := eq_fields_of_regIndices_pair hd rfl
      exact Machine.exec_pc_of_boundsCheck h rfl (Machine.dispatchOf_lw_inBounds _ _ imm)
        (Machine.dispatchOf_lw_outOfBounds _ _ imm)
    | sw rt rs imm =>
      obtain ⟨rfl, rfl⟩ := eq_fields_of_regIndices_pair hd rfl
      exact Machine.exec_pc_of_boundsCheck h rfl (Machine.dispatchOf_sw_inBounds _ _ imm)
        (Machine.dispatchOf_sw_outOfBounds _ _ imm)
    | j address =>
      rw [Machine.exec_j] at h
      cases h
      exact Machine.jumpTarget_eq s.pc address
    | halt b => cases h; rfl

/-- Settles O27: each case of the application by definition, and what memory reads afterwards by the laws of read after
write. -/
theorem effectsApplyAsDescribed : Obligations.EffectsApplyAsDescribed := by
  intro s
  refine ⟨fun _ _ => rfl, fun a v _ => ⟨rfl, fun hwf => ?_, fun b hb => ?_⟩, fun _ => rfl, rfl⟩
  · exact Machine.Memory.read_write_same hwf a.toNat v
  · exact Machine.Memory.read_write_other s.mem hb v

end Sys2Proof
end

section
/-! The fetch trap: what a Running core outside the instruction store does and reports (R71, R141). -/

namespace Sys2Proof.Machine

/-- The fetch bounds check fails exactly from `IMEM_BYTES` on (R71). -/
theorem State.fetchInRange_eq_false_iff (s : State) : s.fetchInRange = false ↔ s.imemBytes ≤ s.pc.toNat := by
  rw [State.fetchInRange, decide_eq_false_iff_not, not_lt]

/-- The activity of a Running core outside the instruction store is the fetch trap, whatever the store holds (R71). -/
theorem activity_of_out_of_range {s : State} (h : s.halted = false) (ha : s.pcAligned = true)
    (hf : s.fetchInRange = false) : activity s = .traps .fetchOutOfRange := by
  simp [activity, h, ha, hf]

/-- A step request whose activity is a trap reports the trap's kind at `pc` (R147). -/
theorem stepReport_of_traps {s : State} {c : TrapCause} (h : activity s = .traps c) :
    stepReport s = some (c.kind, s.pc) := by
  rw [stepReport, h]
  rfl

end Sys2Proof.Machine

namespace Sys2Proof

/-- Settles O32: the bounds check fails, so the step takes the fetch trap, which is of kind SEGFAULT and keeps all but
the halted flag and the record. -/
theorem fetchPastTheEndTraps : Obligations.FetchPastTheEndTraps := by
  intro s hrun haligned hout
  have ha : s.pcAligned = true := decide_eq_true haligned
  have hf : s.fetchInRange = false := s.fetchInRange_eq_false_iff.mpr hout
  exact ⟨Machine.stepReport_of_traps (Machine.activity_of_out_of_range hrun ha hf), _,
    Machine.step_of_out_of_range hrun ha hf, s.takeTrap_halted _, s.takeTrap_pc _, s.takeTrap_regs _,
    s.takeTrap_mem _, s.takeTrap_params _⟩

end Sys2Proof
end

section
/-! The state at the first step of a run (R161). -/

namespace Sys2Proof.Machine

/-- The empty trap record shows as code 00 (R15). -/
@[simp] theorem trapCode_none : trapCode none = 0b00#2 := rfl

end Sys2Proof.Machine

namespace Sys2Proof

/-- Settles O39: booting fills every field of the state by definition, and the record it leaves empty has code 00. -/
theorem runBeginsAtOffsetZero : Obligations.RunBeginsAtOffsetZero := by
  intro p regs mem
  refine ⟨rfl, ?_⟩
  rw [Machine.State.boot_trapKind, Machine.trapCode_none]

end Sys2Proof
end

section
/-! The invariant: every step keeps it, and a step from a state that meets it is never refused (R13, R15, R34, R40). -/

namespace Sys2Proof.Machine

/-! ### Progress: what answers a next state, and what is refused -/

/-- Every instruction answers a next state, whatever its operands (R77). -/
theorem exec_next (i : Instr) (s : State) : ∃ t, exec i s = .next t := by
  rw [exec_eq_dispatchOf]
  cases dispatchOf i s with
  | none => exact ⟨_, rfl⟩
  | some d => exact s.finish_next d

/-- Running a word answers a next state, whether or not it is an instruction (R77). -/
theorem runWord_next (w : Word) (s : State) : ∃ t, runWord w s = .next t := by
  rw [runWord]
  cases decodeWord w with
  | ok i => exact exec_next i s
  | error c => exact ⟨_, rfl⟩

/-- A step answers a next state where the core is Halted or `pc` is a multiple of 4 (R34, R77). -/
theorem step_next {s : State} (h : s.halted = true ∨ s.pc.toNat % 4 = 0) : ∃ t, step s = .next t := by
  cases hhalted : s.halted with
  | true => exact ⟨s, step_of_halted hhalted⟩
  | false =>
    have ha : s.pcAligned = true := decide_eq_true (h.resolve_left (by simp [hhalted]))
    cases hf : s.fetchInRange with
    | false => exact ⟨_, step_of_out_of_range hhalted ha hf⟩
    | true => rw [step_of_running hhalted ha hf]; exact runWord_next _ s

/-- A step is refused exactly from a Running state at a misaligned `pc`, and for that reason (R34). -/
theorem step_refused_iff (s : State) (r : Refusal) :
    step s = .refused r ↔ s.halted = false ∧ s.pc.toNat % 4 ≠ 0 ∧ r = .misalignedPc := by
  constructor
  · intro h
    have hstop : ¬ (s.halted = true ∨ s.pc.toNat % 4 = 0) := fun hgo => by
      obtain ⟨t, ht⟩ := step_next hgo
      rw [ht] at h; cases h
    rw [not_or, Bool.not_eq_true] at hstop
    obtain ⟨hrun, ha⟩ := hstop
    rw [step_of_misaligned hrun (decide_eq_false ha)] at h
    cases h
    exact ⟨hrun, ha, rfl⟩
  · rintro ⟨hrun, ha, rfl⟩
    exact step_of_misaligned hrun (decide_eq_false ha)

/-! ### Preservation -/

/-- The part of the invariant that speaks of the memories: both are in canonical form and inside their spaces (R40). -/
def State.MemoriesCanonical (s : State) : Prop :=
  Memory.wf s.mem = true ∧ Memory.within s.mem s.memWords = true ∧
  Memory.wf s.params.imem = true ∧ Memory.within s.params.imem s.imemBytes = true

/-- The invariant is the alignment of `pc`, a record only when Halted, and canonical memories. -/
theorem State.inv_iff (s : State) :
    s.Inv ↔ s.pc.toNat % 4 = 0 ∧ (s.trapKind ≠ none → s.halted = true) ∧ s.MemoriesCanonical :=
  Iff.rfl

/-- Canonical memories depend on the data memory and the parameters only. -/
theorem State.MemoriesCanonical.congr {s t : State} (h : s.MemoriesCanonical) (hmem : t.mem = s.mem)
    (hparams : t.params = s.params) : t.MemoriesCanonical := by
  simpa only [State.MemoriesCanonical, State.memWords, State.imemBytes, hmem, hparams] using h

/-- A word written in bounds keeps the memories canonical (R40). -/
theorem State.MemoriesCanonical.memoryWrite {s : State} {a : Word} (h : s.MemoriesCanonical)
    (ha : s.memInBounds a = true) (v : Word) : (s.apply (.memoryWrite a v)).MemoriesCanonical := by
  obtain ⟨hwf, hwithin, himem⟩ := h
  exact ⟨State.memWrite_wf hwf a v, State.memWrite_within hwithin ha v, himem⟩

/-- A step keeps the memories canonical: the only word it may write has passed the bounds check (R40, R122). -/
theorem step_memoriesCanonical {s t : State} (h : step s = .next t) (hs : s.MemoriesCanonical) :
    t.MemoriesCanonical := by
  rcases step_keeps_or_applies h with ⟨-, -, -, hmem⟩ | ⟨-, i, e, -, he, rfl⟩
  · exact hs.congr hmem (step_params h)
  · rcases s.apply_changes_one e with ⟨-, hmem⟩ | ⟨_, _, -, hmem, -⟩ | ⟨a, v, rfl, -, -⟩
    · exact hs.congr hmem (s.apply_params e)
    · exact hs.congr hmem (s.apply_params e)
    · exact hs.memoryWrite (dispatchOf_memoryWrite_inBounds he) v

/-- A step leaves a record only in a Halted state: applying an Effect leaves the record alone (R15). -/
theorem step_record_halted {s t : State} (h : step s = .next t) (hs : s.trapKind ≠ none → s.halted = true) :
    t.trapKind ≠ none → t.halted = true := by
  rcases step_keeps_or_applies h with ⟨hhalted, -⟩ | ⟨-, _, e, -, -, rfl⟩
  · exact fun _ => hhalted
  · rw [s.apply_trapKind, s.apply_halted]; exact hs

/-- A step keeps the invariant. -/
theorem step_inv {s t : State} (h : step s = .next t) (hs : s.Inv) : t.Inv := by
  obtain ⟨haligned, hrecord, hmemories⟩ := s.inv_iff.mp hs
  exact t.inv_iff.mpr
    ⟨step_pc_aligned h haligned, step_record_halted h hrecord, step_memoriesCanonical h hmemories⟩

/-- The reset event meets the invariant wherever the memories are canonical (R160). -/
theorem State.MemoriesCanonical.applyReset_inv {s : State} (h : s.MemoriesCanonical) : s.applyReset.Inv :=
  s.applyReset.inv_iff.mpr ⟨rfl, fun hrecord => absurd rfl hrecord, h⟩

/-- A clock edge keeps the invariant: it is the reset event, a step, or nothing (R132, R160). -/
theorem clockEdge_inv {rst stepEn : Bool} {s t : State} (h : clockEdge rst stepEn s = .next t) (hs : s.Inv) :
    t.Inv := by
  cases rst with
  | true =>
    cases h
    obtain ⟨-, -, hmemories⟩ := s.inv_iff.mp hs
    exact hmemories.applyReset_inv
  | false =>
    cases stepEn with
    | true => exact step_inv h hs
    | false => cases h; exact hs

/-- A run from a state that meets the invariant answers a state that meets it: each step has a next state by the alignment
of `pc`, which the invariant carries along. -/
theorem runFor_next_inv (n : Nat) {s : State} (hs : s.Inv) : ∃ t, runFor n s = .next t ∧ t.Inv := by
  induction n generalizing s with
  | zero => exact ⟨s, rfl, hs⟩
  | succ n ih =>
    obtain ⟨t, ht⟩ := step_next (.inr (s.inv_iff.mp hs).1)
    rw [runFor_succ_of_next ht]
    exact ih (step_inv ht hs)

/-- A boot from canonical memories meets the invariant (R161). -/
theorem State.boot_inv {p : Params} {regs : Vector Word 32} {mem : Memory 32}
    (h : (State.boot p regs mem).MemoriesCanonical) : (State.boot p regs mem).Inv :=
  (State.boot p regs mem).inv_iff.mpr ⟨rfl, fun hrecord => absurd rfl hrecord, h⟩

end Sys2Proof.Machine

namespace Sys2Proof

/-- Settles O36: a step keeps each part of the invariant, and so does a clock edge, which is a step, a reset or nothing. -/
theorem stepKeepsTheInvariant : Obligations.StepKeepsTheInvariant :=
  fun _ hs => ⟨fun _ h => Machine.step_inv h hs, fun _ _ _ h => Machine.clockEdge_inv h hs⟩

/-- Settles O37, by induction on the number of steps. -/
theorem runsNeverStopInTheModel : Obligations.RunsNeverStopInTheModel :=
  fun n _ hs => Machine.runFor_next_inv n hs

/-- Settles O38: boot and the reset event both set an aligned `pc` and an empty record, and `State.reset` is a boot. -/
theorem resetMeetsTheInvariant : Obligations.ResetMeetsTheInvariant :=
  ⟨Machine.State.boot_inv Machine.State.reset_memory_wf,
    fun _ _ _ hwf hwithin hiwf hiwithin => Machine.State.boot_inv ⟨hwf, hwithin, hiwf, hiwithin⟩,
    fun _ hwf hwithin hiwf hiwithin => Machine.State.MemoriesCanonical.applyReset_inv ⟨hwf, hwithin, hiwf, hiwithin⟩⟩

/-- Settles O40: every register of the reset machine is a cell of the replicated vector, and its data memory lists
nothing. -/
theorem resetMachineHoldsTheLoggedValues : Obligations.ResetMachineHoldsTheLoggedValues := by
  refine ⟨rfl, rfl, rfl, fun r => ?_, fun a => Machine.Memory.read_nil a, rfl, rfl⟩
  exact Vector.getElem_replicate r.isLt

/-- Settles O46: a Halted state steps to itself, and a record implies Halted by the invariant. -/
theorem haltedAndTrapRecordAreSticky : Obligations.HaltedAndTrapRecordAreSticky := by
  intro s t h
  have hself : s.halted = true → t = s := fun hhalted => by
    rw [Machine.step_of_halted hhalted] at h; cases h; rfl
  refine ⟨fun hhalted => hself hhalted ▸ hhalted, fun hs k hk => ?_⟩
  obtain ⟨-, hrecord, -⟩ := s.inv_iff.mp hs
  rw [hself (hrecord (by simp [hk])), hk]

/-- Settles O53: the refusal by its exact condition, and no fault because the type of faults is empty. -/
theorem onlyMisalignedPcIsRefused : Obligations.OnlyMisalignedPcIsRefused :=
  ⟨Machine.step_refused_iff, fun _ h => Machine.step_next h, nofun, nofun⟩

end Sys2Proof
end

section
/-! The two directions of the round trip between words and instructions (R51 to R53, R57 to R59, R65), the match and mask
table (R59), and the bits that no meaning looks at (R56). -/

namespace Sys2Proof

/-! ### Fields and operands -/

/-- A word is its I-shape fields packed again (R52). -/
theorem word_eq_packI (w : Word) : w = packI (opcodeField w) (rsField w) (rtField w) (immField w) := by
  apply BitVec.eq_of_getLsbD_eq
  intro i hi
  simp only [packI, opcodeField, rsField, rtField, immField, BitVec.getLsbD_append, BitVec.getLsbD_extractLsb']
  interval_cases i <;> rfl

/-- An index in 0..31 is read back from its field (R56). -/
theorem toNat_regField {r : Nat} (h : r < 32) : (regField r).toNat = r :=
  (BitVec.toNat_ofNat r 5).trans (Nat.mod_eq_of_lt h)

/-- A field read as an index packs to itself (R56). -/
@[simp] theorem regField_toNat (b : BitVec 5) : regField b.toNat = b :=
  (BitVec.ofNat_toNat 5 b).trans (BitVec.setWidth_eq b)

/-- The indices of a well-formed instruction lie in 0..31 (R21). -/
theorem wellFormed_iff (i : Instr) : i.WellFormed ↔ ∀ r ∈ i.regIndices, r < 32 := by
  simp [Instr.WellFormed, Instr.wellFormed]

/-- Every decoded instruction is well-formed: its indices are fields of 5 bits (R21, C5). -/
theorem wellFormed_of_decodeWord {w : Word} {i : Instr} (h : decodeWord w = .ok i) : i.WellFormed := by
  rw [wellFormed_iff]
  intro r hr
  have hfield := (decodeWord_regIndices h).subset hr
  simp only [List.mem_cons, List.not_mem_nil, or_false] at hfield
  rcases hfield with rfl | rfl | rfl <;> exact BitVec.isLt _

/-! ### Decoding what was encoded -/

section
variable (rs rt rd sh : BitVec 5) (f o : BitVec 6) (imm : BitVec 16)

/-- A packed R-shape word of opcode 0x00 is selected on its funct. -/
theorem decodeWord_packR : decodeWord (packR 0x00#6 rs rt rd sh f) = select (.r 0x00#6 rs rt rd sh f) := by
  simp [decodeWord_rShape]

/-- A packed I-shape word is selected on its opcode. -/
theorem decodeWord_packI (ho : o ∉ [0x00#6, 0x02#6, 0x3F#6]) :
    decodeWord (packI o rs rt imm) = select (.i o rs rt imm) := by
  simp only [List.mem_cons, List.not_mem_nil, or_false, not_or] at ho
  obtain ⟨hR, hJ, hHalt⟩ := ho
  simp [decodeWord_iShape, hR, hJ, hHalt]

end

/-- Decoding the word of a well-formed instruction gives it back (R65, T7). -/
theorem decodeWord_encode {i : Instr} (h : i.WellFormed) : decodeWord (encode i) = .ok i := by
  rw [wellFormed_iff] at h
  cases i with
  | addu rd rs rt sh | subu rd rs rt sh | and rd rs rt sh | or rd rs rt sh | nor rd rs rt sh =>
    simp only [Instr.regIndices, List.forall_mem_cons] at h
    obtain ⟨hrs, hrt, hrd, -⟩ := h
    simp [encode, decodeWord_packR, select, toNat_regField, hrs, hrt, hrd]
  | addiu rt rs imm | beq rs rt imm | lw rt rs imm | sw rt rs imm =>
    simp only [Instr.regIndices, List.forall_mem_cons] at h
    obtain ⟨hrs, hrt, -⟩ := h
    simp [encode, decodeWord_packI, select, toNat_regField, hrs, hrt]
  | j address => simp [encode, decodeWord_jShape]
  | halt ignored => simp [encode, decodeWord_haltShape]

/-! ### Encoding what was decoded -/

/-- The instruction selected from fields with opcode 0x00 encodes to them (R51). -/
theorem encode_of_select_r {rs rt rd sh : BitVec 5} {f : BitVec 6} {i : Instr}
    (h : select (.r 0x00#6 rs rt rd sh f) = .ok i) : encode i = packR 0x00#6 rs rt rd sh f := by
  simp only [select] at h
  repeat' split at h
  all_goals cases h
  all_goals simp_all [encode]

/-- The instruction selected from I-shape fields encodes to them (R52). -/
theorem encode_of_select_i {o : BitVec 6} {rs rt : BitVec 5} {imm : BitVec 16} {i : Instr}
    (h : select (.i o rs rt imm) = .ok i) : encode i = packI o rs rt imm := by
  simp only [select] at h
  repeat' split at h
  all_goals cases h
  all_goals simp_all [encode]

/-- Encoding a decoded instruction gives the word back: each shape's fields cover the word (R65). -/
theorem encode_of_decodeWord {w : Word} {i : Instr} (h : decodeWord w = .ok i) : encode i = w := by
  by_cases hR : opcodeField w = 0x00#6
  · rw [decodeWord_rShape hR] at h
    rw [encode_of_select_r h, ← hR, ← word_eq_packR]
  by_cases hJ : opcodeField w = 0x02#6
  · rw [decodeWord_jShape hJ] at h
    cases h
    rw [encode, ← hJ, ← word_eq_packJ]
  by_cases hHalt : opcodeField w = 0x3F#6
  · rw [decodeWord_haltShape hHalt] at h
    cases h
    rw [encode, ← hHalt, ← word_eq_packJ]
  rw [decodeWord_iShape hR hJ hHalt] at h
  rw [encode_of_select_i h, ← word_eq_packI]

/-! ### The match and mask table -/

/-- The word of every instruction has the fixed bits of its row (R59). -/
theorem encode_and_mask (i : Instr) : encode i &&& i.op.mask = i.op.pattern := by
  have hrow : Laws.FixedBits.Statement i := by
    cases i with
    | addu rd rs rt sh => exact Laws.FixedBits.addu rd rs rt sh
    | subu rd rs rt sh => exact Laws.FixedBits.subu rd rs rt sh
    | and rd rs rt sh => exact Laws.FixedBits.and rd rs rt sh
    | or rd rs rt sh => exact Laws.FixedBits.or rd rs rt sh
    | nor rd rs rt sh => exact Laws.FixedBits.nor rd rs rt sh
    | addiu rt rs imm => exact Laws.FixedBits.addiu rt rs imm
    | beq rs rt imm => exact Laws.FixedBits.beq rs rt imm
    | lw rt rs imm => exact Laws.FixedBits.lw rt rs imm
    | sw rt rs imm => exact Laws.FixedBits.sw rt rs imm
    | j address => exact Laws.FixedBits.j address
    | halt ignored => exact Laws.FixedBits.halt ignored
  exact hrow.1

/-- A word with the fixed bits of a row decodes to an instruction of that row (R59). -/
theorem decodeWord_of_mask {x : Op} {w : Word} (h : w &&& x.mask = x.pattern) :
    ∃ i, decodeWord w = .ok i ∧ i.op = x := by
  cases x with
  | addu => exact ⟨_, decodeWord_of_functMask 0x21#6 h, rfl⟩
  | subu => exact ⟨_, decodeWord_of_functMask 0x23#6 h, rfl⟩
  | and => exact ⟨_, decodeWord_of_functMask 0x24#6 h, rfl⟩
  | or => exact ⟨_, decodeWord_of_functMask 0x25#6 h, rfl⟩
  | nor => exact ⟨_, decodeWord_of_functMask 0x27#6 h, rfl⟩
  | addiu => exact ⟨_, decodeWord_of_opcodeMask (o := 0x09#6) (by decide) h, rfl⟩
  | beq => exact ⟨_, decodeWord_of_opcodeMask (o := 0x04#6) (by decide) h, rfl⟩
  | lw => exact ⟨_, decodeWord_of_opcodeMask (o := 0x23#6) (by decide) h, rfl⟩
  | sw => exact ⟨_, decodeWord_of_opcodeMask (o := 0x2B#6) (by decide) h, rfl⟩
  | j => exact ⟨_, decodeWord_jShape ((and_opcodeMask_eq w 0x02#6).mp h), rfl⟩
  | halt => exact ⟨_, decodeWord_haltShape ((and_opcodeMask_eq w 0x3F#6).mp h), rfl⟩

/-- A word decodes to an instruction of a row exactly when it has the row's fixed bits (R59). -/
theorem decodeWord_op_iff (x : Op) (w : Word) :
    (∃ i, decodeWord w = .ok i ∧ i.op = x) ↔ w &&& x.mask = x.pattern := by
  refine ⟨?_, decodeWord_of_mask⟩
  rintro ⟨i, hi, rfl⟩
  rw [← encode_of_decodeWord hi]
  exact encode_and_mask i

/-- A word has the fixed bits of at most one row: both rows are that of the instruction it decodes to (R59). -/
theorem mask_disjoint {x y : Op} {w : Word} (hx : w &&& x.mask = x.pattern) (hy : w &&& y.mask = y.pattern) :
    x = y := by
  obtain ⟨i, hi, rfl⟩ := decodeWord_of_mask hx
  obtain ⟨j, hj, rfl⟩ := decodeWord_of_mask hy
  rw [hi] at hj
  cases hj
  rfl

/-- A word is rejected exactly when it has the fixed bits of no row (R59). -/
theorem decodeWord_error_iff (w : Word) :
    (∃ c, decodeWord w = .error c) ↔ ∀ x : Op, w &&& x.mask ≠ x.pattern := by
  constructor
  · rintro ⟨c, hc⟩ x hx
    obtain ⟨i, hi, -⟩ := decodeWord_of_mask hx
    rw [hc] at hi
    cases hi
  · intro hnone
    cases hd : decodeWord w with
    | error c => exact ⟨c, rfl⟩
    | ok i => exact absurd ((decodeWord_op_iff i.op w).mp ⟨i, hd, rfl⟩) (hnone i.op)

end Sys2Proof

namespace Sys2Proof.Machine

/-! ### The bits that no meaning looks at -/

/-- An R-shape word runs alike with any `shamt` (R56, R96). -/
theorem runWord_packR_shamt (rs rt rd sh sh' : BitVec 5) (f : BitVec 6) (s : State) :
    runWord (packR 0x00#6 rs rt rd sh f) s = runWord (packR 0x00#6 rs rt rd sh' f) s := by
  by_cases hf : f ∈ [0x21#6, 0x23#6, 0x24#6, 0x25#6, 0x27#6]
  · simp only [runWord, decodeWord_packR]
    simp only [List.mem_cons, List.not_mem_nil, or_false] at hf
    rcases hf with rfl | rfl | rfl | rfl | rfl <;> rfl
  · have hunkop (sh : BitVec 5) : decodeWord (packR 0x00#6 rs rt rd sh f) = .error (.funct f) := by
      simpa using decodeWord_of_unsupportedFunct (w := packR 0x00#6 rs rt rd sh f) (by simp) (by simpa using hf)
    rw [runWord, runWord, hunkop, hunkop]

/-- A HALT word halts, whatever its low bits are (R111). -/
theorem runWord_halt {w : Word} (h : opcodeField w = 0x3F#6) (s : State) : runWord w s = .next s.halt := by
  rw [runWord, decodeWord_haltShape h]
  rfl

end Sys2Proof.Machine

namespace Sys2Proof

/-- Settles O2: on words by the row of the instruction, and on bytes because they assemble to the word. -/
theorem decodeInvertsEncode : Obligations.DecodeInvertsEncode := by
  intro i h
  have hword : decodeWord (encode i) = .ok i := decodeWord_encode h
  refine ⟨hword, fun rest => ?_⟩
  rw [encodeBytes, decode_wordBytes, hword]

/-- Settles O3: the fields of the word's shape pack to it again, and an index is a field of 5 bits. -/
theorem encodeInvertsDecode : Obligations.EncodeInvertsDecode :=
  fun _ _ h => ⟨encode_of_decodeWord h, wellFormed_of_decodeWord h⟩

/-- Settles O4: one packing law per shape for the word, and one law per field of a packed word. -/
theorem fieldsRepackToTheWord : Obligations.FieldsRepackToTheWord := by
  refine ⟨fun sh w d h => ?_, fun o rs rt rd sh f => ?_, fun o rs rt imm => ?_, fun o address => ?_⟩
  · cases sh with
    | r => cases h; exact (word_eq_packR w).symm
    | i => cases h; exact (word_eq_packI w).symm
    | j => cases h; exact (word_eq_packJ w).symm
    | halt => cases h
  · simp [decodeFields, packFields]
  · simp [decodeFields, packFields]
  · simp [decodeFields, packFields]

/-- Settles O7: the table is the decoder, row by row, so its rows are disjoint and what it leaves out is rejected. -/
theorem matchAndMaskDecide : Obligations.MatchAndMaskDecide :=
  ⟨decodeWord_op_iff, fun _ _ _ => mask_disjoint, decodeWord_error_iff⟩

/-- Settles O1: the decoder evaluates on each of the eleven words. -/
theorem oneWordPerRowDecodes : Obligations.OneWordPerRowDecodes := by
  unfold Obligations.OneWordPerRowDecodes
  decide

/-- Settles O51: the two R-shape words are packed from the same fields but `shamt`, and both HALT words halt. -/
theorem ignoredBitsDoNotMatter : Obligations.IgnoredBitsDoNotMatter := by
  intro w w' s
  constructor
  · intro ho ho' hrs hrt hrd hf
    rw [word_eq_packR w, word_eq_packR w', ho, ho', hrs, hrt, hrd, hf]
    exact Machine.runWord_packR_shamt _ _ _ _ _ _ s
  · intro ho ho'
    rw [Machine.runWord_halt ho, Machine.runWord_halt ho']

end Sys2Proof
end

section
/-! What an instruction answers, whatever its operands (R77), and its frame: the one register and the one word it may
change, and when it leaves the flags alone (R96, R100, R127, R142, R143). -/

namespace Sys2Proof.Machine

/-! ### What is dispatched -/

/-- Only HALT is not dispatched (R70). -/
theorem op_halt_of_dispatchOf_none {i : Instr} {s : State} (h : dispatchOf i s = none) : i.op = .halt := by
  cases i with
  | halt ignored => rfl
  | addu | subu | and | or | nor | addiu | beq | lw | sw | j => cases h

/-- An instruction with an index out of range raises the register-index trap (R142). -/
theorem dispatchOf_of_not_wellFormed {i : Instr} (h : ¬ i.WellFormed) (s : State) :
    dispatchOf i s = some (.raise .registerIndex) := by
  rw [wellFormed_iff] at h
  cases i with
  | addu | subu | and | or | nor =>
    simp only [Instr.regIndices, List.forall_mem_cons, List.not_mem_nil, false_implies, implies_true, and_true,
      not_and_or, not_lt] at h
    exact congrArg some (dispatchR_out_of_range h _ s)
  | addiu | beq | lw | sw =>
    simp only [Instr.regIndices, List.forall_mem_cons, List.not_mem_nil, false_implies, implies_true, and_true,
      not_and_or, not_lt] at h
    exact congrArg some (dispatchI_out_of_range h _)
  | j | halt => exact absurd (List.forall_mem_nil _) h

/-- R-shape on indices in range raises no trap (R96). -/
theorem dispatchR_ne_raise {rd rs rt : Nat} (h : ∀ r ∈ [rs, rt, rd], r < 32) (alu : Word → Word → Word) (s : State)
    (c : TrapCause) : dispatchR rd rs rt alu s ≠ .raise c := by
  simp only [List.forall_mem_cons] at h
  obtain ⟨hrs, hrt, hrd, -⟩ := h
  intro hraise
  cases (dispatchR_val ⟨rd, hrd⟩ ⟨rs, hrs⟩ ⟨rt, hrt⟩ alu s).symm.trans hraise

/-- I-shape on indices in range raises only what its own dispatch raises (R100). -/
theorem dispatchI_raise {rs rt : Nat} {k : Fin 32 → Fin 32 → Dispatched} {c : TrapCause}
    (h : ∀ r ∈ [rs, rt], r < 32) (hraise : dispatchI rs rt k = .raise c) :
    ∃ i j : Fin 32, i.val = rs ∧ j.val = rt ∧ k i j = .raise c := by
  simp only [List.forall_mem_cons] at h
  obtain ⟨hrs, hrt, -⟩ := h
  exact ⟨⟨rs, hrs⟩, ⟨rt, hrt⟩, rfl, rfl, (dispatchI_val ⟨rs, hrs⟩ ⟨rt, hrt⟩ k).symm.trans hraise⟩

/-- A well-formed instruction raises a trap only for the address that it loads from or stores to, out of bounds (R143). -/
theorem dispatchOf_raise {i : Instr} {s : State} {c : TrapCause} (hwf : i.WellFormed)
    (h : dispatchOf i s = some (.raise c)) :
    ∃ a, (loadAddress i s = some a ∨ storeAddress i s = some a) ∧ ¬ s.memInBounds a = true := by
  rw [wellFormed_iff] at hwf
  cases i with
  | addu rd rs rt sh | subu rd rs rt sh | and rd rs rt sh | or rd rs rt sh | nor rd rs rt sh =>
    exact absurd (Option.some.inj h) (dispatchR_ne_raise hwf _ s c)
  | addiu rt rs imm =>
    obtain ⟨_, _, -, -, hk⟩ := dispatchI_raise hwf (Option.some.inj h)
    cases hk
  | beq rs rt imm =>
    obtain ⟨_, _, -, -, hk⟩ := dispatchI_raise hwf (Option.some.inj h)
    split at hk <;> cases hk
  | lw rt rs imm =>
    obtain ⟨i, _, rfl, -, hk⟩ := dispatchI_raise hwf (Option.some.inj h)
    split at hk
    · cases hk
    case isFalse hout => exact ⟨_, .inl (by rw [loadAddress, regIndex_val]; rfl), hout⟩
  | sw rt rs imm =>
    obtain ⟨i, _, rfl, -, hk⟩ := dispatchI_raise hwf (Option.some.inj h)
    split at hk
    · cases hk
    case isFalse hout => exact ⟨_, .inr (by rw [storeAddress, regIndex_val]; rfl), hout⟩
  | j address => cases h
  | halt ignored => cases h

/-! ### The frame of an instruction -/

section
variable {i : Instr} {s t : State}

/-- HALT sets the halted flag (R111). -/
theorem exec_of_op_halt (h : i.op = .halt) (s : State) : exec i s = .next s.halt := by
  cases i with
  | halt ignored => rfl
  | addu | subu | and | or | nor | addiu | beq | lw | sw | j => cases h

/-- An instruction changes no register but its destination (R20, R127). -/
theorem exec_readReg (h : exec i s = .next t) {r : Fin 32} (hr : i.writtenReg ≠ some r.val) :
    t.readReg r = s.readReg r := by
  rcases exec_cases h with rfl | ⟨e, he, rfl⟩ | ⟨c, -, rfl⟩
  · exact State.readReg_congr s.halt_regs r
  · by_contra hne
    obtain ⟨v, rfl⟩ := State.readReg_apply_ne hne
    exact hr (dispatchOf_registerWrite he)
  · exact State.readReg_congr (s.takeTrap_regs c) r

/-- An instruction changes no word of memory but the one it stores to (R104, R127). -/
theorem exec_read_mem (h : exec i s = .next t) {b : Nat} (hb : ∀ a, storeAddress i s = some a → b ≠ a.toNat) :
    Memory.read t.mem b = Memory.read s.mem b := by
  rcases exec_cases h with rfl | ⟨e, he, rfl⟩ | ⟨c, -, rfl⟩
  · rw [s.halt_mem]
  · by_contra hne
    obtain ⟨a, v, rfl, hab⟩ := State.read_apply_mem_ne hne
    exact hb a (dispatchOf_memoryWrite he).1 hab
  · rw [s.takeTrap_mem]

/-- An instruction that is no `sw` stores nowhere (R104). -/
theorem storeAddress_of_op_ne (h : i.op ≠ .sw) (s : State) : storeAddress i s = none := by
  cases i with
  | sw rt rs imm => exact absurd rfl h
  | addu | subu | and | or | nor | addiu | beq | lw | j | halt => rfl

/-- An instruction that is no `lw` loads from nowhere (R103). -/
theorem loadAddress_of_op_ne (h : i.op ≠ .lw) (s : State) : loadAddress i s = none := by
  cases i with
  | lw rt rs imm => exact absurd rfl h
  | addu | subu | and | or | nor | addiu | beq | sw | j | halt => rfl

/-- An instruction that is no `sw` changes no word of memory (R127). -/
theorem exec_read_mem_of_op_ne (h : exec i s = .next t) (hop : i.op ≠ .sw) (b : Nat) :
    Memory.read t.mem b = Memory.read s.mem b := by
  refine exec_read_mem h fun a ha => ?_
  rw [storeAddress_of_op_ne hop] at ha
  cases ha

/-- No instruction changes the parameters (R43). -/
theorem exec_params (h : exec i s = .next t) : t.params = s.params := by
  rcases exec_cases h with rfl | ⟨e, -, rfl⟩ | ⟨c, -, rfl⟩
  · exact s.halt_params
  · exact s.apply_params e
  · exact s.takeTrap_params c

/-- A well-formed instruction other than HALT leaves the halted flag and the trap record alone when the address it loads
from or stores to is in bounds, since it then raises no trap (R77). -/
theorem exec_flags (h : exec i s = .next t) (hwf : i.WellFormed) (hop : i.op ≠ .halt)
    (hload : ∀ a, loadAddress i s = some a → s.memInBounds a = true)
    (hstore : ∀ a, storeAddress i s = some a → s.memInBounds a = true) :
    t.halted = s.halted ∧ t.trapKind = s.trapKind := by
  cases hd : dispatchOf i s with
  | none => exact absurd (op_halt_of_dispatchOf_none hd) hop
  | some d =>
    cases d with
    | effect e =>
      rw [exec_of_effect hd] at h
      cases h
      exact ⟨s.apply_halted e, s.apply_trapKind e⟩
    | raise c =>
      obtain ⟨a, ha | ha, hout⟩ := dispatchOf_raise hwf hd
      · exact absurd (hload a ha) hout
      · exact absurd (hstore a ha) hout

/-- Without an address to check, a well-formed instruction other than HALT leaves the flags alone. -/
theorem exec_flags_of_no_address (h : exec i s = .next t) (hwf : i.WellFormed) (hop : i.op ∉ [.halt, .lw, .sw]) :
    t.halted = s.halted ∧ t.trapKind = s.trapKind := by
  simp only [List.mem_cons, List.not_mem_nil, or_false, not_or] at hop
  obtain ⟨hhalt, hlw, hsw⟩ := hop
  exact exec_flags h hwf hhalt (by simp [loadAddress_of_op_ne hlw]) (by simp [storeAddress_of_op_ne hsw])

end

/-- An R-shape instruction is neither HALT nor an access to the data memory (R57). -/
theorem op_of_shape_r {i : Instr} (h : i.shape = .r) : i.op ∉ [.halt, .lw, .sw] := by
  cases i with
  | addu | subu | and | or | nor => simp [Instr.op]
  | addiu | beq | lw | sw | j | halt => cases h

/-- An instruction that writes no register changes none. -/
theorem exec_readReg_of_writtenReg_none {i : Instr} {s t : State} (h : exec i s = .next t) (hw : i.writtenReg = none)
    (r : Fin 32) : t.readReg r = s.readReg r :=
  exec_readReg h (by simp [hw])

/-- `beq`, `sw`, `j` and HALT write no register (R20). -/
theorem writtenReg_none_of_op {i : Instr} (h : i.op ∈ [.beq, .sw, .j, .halt]) : i.writtenReg = none := by
  cases i with
  | beq | sw | j | halt => rfl
  | addu | subu | and | or | nor | addiu | lw => simp [Instr.op] at h

end Sys2Proof.Machine

namespace Sys2Proof

/-- Settles O54: HALT alone is not dispatched, and the rest end with what the dispatcher answers. -/
theorem everyInstructionAnswersANextState : Obligations.EveryInstructionAnswersANextState := by
  intro i s
  cases hd : Machine.dispatchOf i s with
  | none =>
    have hop := Machine.op_halt_of_dispatchOf_none hd
    exact ⟨_, Machine.exec_of_op_halt hop s, .inl ⟨hop, rfl⟩⟩
  | some d =>
    cases d with
    | raise c => exact ⟨_, Machine.exec_of_raise hd, .inr (.inl ⟨c, rfl, rfl⟩)⟩
    | effect e =>
      exact ⟨_, Machine.exec_of_effect hd, .inr (.inr ⟨e, rfl, rfl, s.apply_halted e, s.apply_trapKind e⟩)⟩

/-- Settles O15: the dispatch of an ill-formed instruction is the register-index trap, which is of kind SEGFAULT. -/
theorem registerIndexOutOfRangeTraps : Obligations.RegisterIndexOutOfRangeTraps :=
  fun _ s h => Machine.exec_of_raise (Machine.dispatchOf_of_not_wellFormed h s)

/-- Settles O14: the frame of `exec` at an instruction that accesses no data memory. -/
theorem rShapeFrame : Obligations.RShapeFrame := by
  intro i s t hshape h
  have hop := Machine.op_of_shape_r hshape
  exact ⟨fun r => Machine.exec_readReg h, Machine.exec_read_mem_of_op_ne h fun hsw => by simp [hsw] at hop, Machine.exec_params h,
    fun hwf => Machine.exec_flags_of_no_address h hwf hop⟩

/-- Settles O20: the frame of `exec` at an instruction that stores nowhere. -/
theorem addiuAndLwFrame : Obligations.AddiuAndLwFrame := by
  intro i s t hop h
  have hsw : i.op ≠ .sw := by rcases hop with hop | hop <;> simp [hop]
  have hhalt : i.op ≠ .halt := by rcases hop with hop | hop <;> simp [hop]
  exact ⟨fun r => Machine.exec_readReg h, Machine.exec_read_mem_of_op_ne h hsw, Machine.exec_params h,
    fun hwf hload => Machine.exec_flags h hwf hhalt hload (by simp [Machine.storeAddress_of_op_ne hsw])⟩

/-- Settles O21: the frame of `exec` at an instruction that writes no register. -/
theorem swFrame : Obligations.SwFrame := by
  intro i s t hop h
  refine ⟨Machine.exec_readReg_of_writtenReg_none h (Machine.writtenReg_none_of_op (by simp [hop])), ?_, ?_,
    Machine.exec_params h, ?_⟩
  · intro a ha b hb
    exact Machine.exec_read_mem h fun a' ha' => by rw [ha] at ha'; cases ha'; exact hb
  · intro hnone b
    exact Machine.exec_read_mem h fun a ha => by rw [hnone] at ha; cases ha
  · intro hwf hstore
    exact Machine.exec_flags h hwf (by simp [hop]) (by simp [Machine.loadAddress_of_op_ne, hop]) hstore

/-- Settles O22: the frame of `exec` at instructions that write no register and store nowhere; HALT halts. -/
theorem beqJumpAndHaltFrame : Obligations.BeqJumpAndHaltFrame := by
  intro i s t hop h
  have hsw : i.op ≠ .sw := by rcases hop with hop | hop | hop <;> simp [hop]
  have hlw : i.op ≠ .lw := by rcases hop with hop | hop | hop <;> simp [hop]
  have hnoReg : i.op ∈ [.beq, .sw, .j, .halt] := by rcases hop with hop | hop | hop <;> simp [hop]
  refine ⟨Machine.exec_readReg_of_writtenReg_none h (Machine.writtenReg_none_of_op hnoReg),
    Machine.exec_read_mem_of_op_ne h hsw, Machine.exec_params h, ?_, ?_⟩
  · intro hwf hhalt
    exact Machine.exec_flags_of_no_address h hwf (by simp [hhalt, hlw, hsw])
  · intro hhalt
    rw [Machine.exec_of_op_halt hhalt] at h
    cases h
    exact ⟨s.halt_trapKind, s.halt_pc⟩

/-- Settles O48: register 0 is written and read like any other, so each of the two reads gives the value just written. -/
theorem registerZeroIsOrdinary : Obligations.RegisterZeroIsOrdinary := by
  intro s rs rt rd imm shamt
  refine ⟨_, _, Machine.exec_of_effect (Machine.dispatchOf_addiu rs 0 imm), s.readReg_writeReg_same 0 _,
    Machine.exec_of_effect (congrArg some (Machine.dispatchR_val rd 0 rt Machine.aluAddu _)), ?_⟩
  refine (Machine.State.readReg_writeReg_same _ rd _).trans ?_
  exact congrArg (· + _) (s.readReg_writeReg_same 0 _)

end Sys2Proof
end

section
/-! The sign-extended immediate as a number (R7, R54), and the data address check on the wrapped sum (R38). -/

namespace Sys2Proof.Machine

/-- The sign-extended immediate keeps its two's-complement value (R7). -/
@[simp] theorem toInt_sext16 (imm : BitVec 16) : (sext16 imm).toInt = imm.toInt :=
  BitVec.toInt_signExtend_of_le (by decide)

/-- The sign-extended immediate as an unsigned number: the immediate, with 16 ones above it where it is negative (R7). -/
theorem toNat_sext16 (imm : BitVec 16) :
    (sext16 imm).toNat = if imm.toNat < 0x8000 then imm.toNat else imm.toNat + 0xFFFF0000 := by
  have himm : imm.toNat < 2 ^ 16 := imm.isLt
  rw [sext16, BitVec.toNat_signExtend, BitVec.toNat_setWidth_of_le (by decide), BitVec.msb_eq_decide]
  by_cases hsign : imm.toNat < 0x8000 <;> simp [hsign, show 0x8000 ≤ imm.toNat ↔ ¬ imm.toNat < 0x8000 from not_lt.symm]

/-- A word as an unsigned number is its signed value modulo 2^32. -/
theorem toNat_eq_toInt_emod (x : Word) : (x.toNat : Int) = x.toInt % 2 ^ 32 := by
  have hx : x.toNat < 2 ^ 32 := x.isLt
  rw [BitVec.toInt_eq_toNat_cond]
  split <;> omega

/-- The address is the exact signed sum modulo 2^32 (R38, decision D6). -/
theorem toNat_basePlusImm (base : Word) (imm : BitVec 16) :
    ((basePlusImm base imm).toNat : Int) = (base.toInt + imm.toInt) % 2 ^ 32 := by
  rw [toNat_eq_toInt_emod, basePlusImm, BitVec.toInt_add, toInt_sext16]
  exact Int.bmod_emod

end Sys2Proof.Machine

namespace Sys2Proof

/-- Settles O24: the number by the sign bit, the signed value because extension keeps it. -/
theorem signExtensionFormula : Obligations.SignExtensionFormula :=
  fun v => ⟨Machine.toNat_sext16 v, Machine.toInt_sext16 v⟩

/-- Settles O23: the exact sum lies in `[-2^31 - 2^15, 2^31 + 2^15)`, so a negative one wraps to at least
`2^31 - 2^15`, which no admitted capacity exceeds. -/
theorem dataAddressCheckIsExact : Obligations.DataAddressCheckIsExact := by
  intro base imm s
  have hsum := Machine.toNat_basePlusImm base imm
  have hbase : -2 ^ 31 ≤ base.toInt ∧ base.toInt < 2 ^ 31 := ⟨base.le_toInt, base.toInt_lt⟩
  have himm : -2 ^ 15 ≤ imm.toInt ∧ imm.toInt < 2 ^ 15 := ⟨imm.le_toInt, imm.toInt_lt⟩
  have hcapacity : s.params.memWords.val ≤ 2 ^ 31 - 2 ^ 15 := Nat.le_of_lt_succ s.params.memWords.isLt
  rw [Machine.State.memInBounds_iff, Machine.State.memWords]
  omega

end Sys2Proof
end

section
/-! Canonical memories as functions (R36, R40), what a load reads after a store (R42), and the word that the environment
loads where `pc` points (R163). -/

namespace Sys2Proof.Machine

/-! ### Canonical memories are determined by what they read -/

section
variable {w : Nat}

/-- The first cell of a canonical memory is not unlisted, and no address below it is listed. -/
theorem Memory.read_lt_head {k a : Nat} {v : BitVec w} {rest : Memory w} (h : Memory.wf ((k, v) :: rest) = true)
    (ha : a < k) : Memory.read ((k, v) :: rest) a = Config.unlistedCell w := by
  obtain ⟨-, hk, -⟩ := (Memory.wf_cons k v rest).mp h
  refine Memory.read_below fun c hc => ?_
  rcases List.mem_cons.mp hc with rfl | hc
  · exact ha
  · exact Nat.lt_trans ha (hk c hc)

/-- The first cell of a canonical memory reads as listed. -/
theorem Memory.read_head_ne {k : Nat} {v : BitVec w} {rest : Memory w} (h : Memory.wf ((k, v) :: rest) = true) :
    Memory.read ((k, v) :: rest) k ≠ Config.unlistedCell w := by
  obtain ⟨hv, -, -⟩ := (Memory.wf_cons k v rest).mp h
  rwa [Memory.read_cons, if_pos rfl]

/-- Canonical memories that read alike begin with cells at the same address: the lower one would be unlisted in the other. -/
theorem Memory.head_addr_eq {k k' : Nat} {v v' : BitVec w} {rest rest' : Memory w}
    (h : Memory.wf ((k, v) :: rest) = true) (h' : Memory.wf ((k', v') :: rest') = true)
    (heq : ∀ a, Memory.read ((k, v) :: rest) a = Memory.read ((k', v') :: rest') a) : k = k' := by
  rcases Nat.lt_trichotomy k k' with hlt | hkk | hgt
  · exact absurd ((heq k).trans (Memory.read_lt_head h' hlt)) (Memory.read_head_ne h)
  · exact hkk
  · exact absurd ((heq k').symm.trans (Memory.read_lt_head h hgt)) (Memory.read_head_ne h')

/-- Canonical memories that read alike are equal. -/
theorem Memory.ext_of_wf {m m' : Memory w} (h : Memory.wf m = true) (h' : Memory.wf m' = true)
    (heq : ∀ a, Memory.read m a = Memory.read m' a) : m = m' := by
  induction m generalizing m' with
  | nil =>
    cases m' with
    | nil => rfl
    | cons c' rest' => exact absurd (heq c'.1).symm (Memory.read_head_ne h')
  | cons c rest ih =>
    obtain ⟨k, v⟩ := c
    cases m' with
    | nil => exact absurd (heq k) (Memory.read_head_ne h)
    | cons c' rest' =>
      obtain ⟨k', v'⟩ := c'
      obtain rfl := Memory.head_addr_eq h h' heq
      obtain ⟨-, hk, hrest⟩ := (Memory.wf_cons k v rest).mp h
      obtain ⟨-, hk', hrest'⟩ := (Memory.wf_cons k v' rest').mp h'
      obtain rfl : v = v' := by simpa [Memory.read_cons] using heq k
      refine congrArg (List.cons (k, v)) (ih hrest hrest' fun a => ?_)
      by_cases ha : k = a
      · subst ha
        rw [Memory.read_below hk, Memory.read_below hk']
      · simpa [Memory.read_cons, ha] using heq a

/-- Writing back what was read restores a canonical memory. -/
theorem Memory.write_write_read {m : Memory w} (h : Memory.wf m = true) (a : Nat) (v : BitVec w) :
    Memory.write (Memory.write m a v) a (Memory.read m a) = m := by
  have hwrite : Memory.wf (Memory.write m a v) = true := Memory.write_wf h a v
  refine Memory.ext_of_wf (Memory.write_wf hwrite a _) h fun b => ?_
  by_cases hb : b = a
  · rw [hb, Memory.read_write_same hwrite]
  · rw [Memory.read_write_other _ hb, Memory.read_write_other _ hb]

/-- The memory that holds given contents below a bound, written cell by cell. -/
def Memory.ofContent (content : Nat → BitVec w) : Nat → Memory w
  | 0 => []
  | bound + 1 => Memory.write (Memory.ofContent content bound) bound (content bound)

theorem Memory.ofContent_wf (content : Nat → BitVec w) (bound : Nat) :
    Memory.wf (Memory.ofContent content bound) = true := by
  induction bound with
  | zero => rfl
  | succ bound ih => exact Memory.write_wf ih bound _

theorem Memory.ofContent_within (content : Nat → BitVec w) (bound : Nat) :
    Memory.within (Memory.ofContent content bound) bound = true := by
  induction bound with
  | zero => rfl
  | succ bound ih => exact Memory.write_within (Memory.within_mono ih (Nat.le_succ bound)) (Nat.lt_succ_self bound) _

theorem Memory.read_ofContent (content : Nat → BitVec w) {a bound : Nat} (ha : a < bound) :
    Memory.read (Memory.ofContent content bound) a = content a := by
  induction bound with
  | zero => cases ha
  | succ bound ih =>
    rw [Memory.ofContent]
    by_cases hlast : a = bound
    · rw [hlast, Memory.read_write_same (Memory.ofContent_wf content bound)]
    · rw [Memory.read_write_other _ hlast, ih (by omega)]

end

/-! ### Loading a word -/

/-- Writing a list of bytes leaves every cell outside their range alone. -/
theorem Memory.read_writeBytes_other (m : Memory 8) {offset a : Nat} {bs : List Byte}
    (ha : a < offset ∨ offset + bs.length ≤ a) :
    Memory.read (Memory.writeBytes m offset bs) a = Memory.read m a := by
  induction bs generalizing m offset with
  | nil => rfl
  | cons b bs ih =>
    rw [List.length_cons] at ha
    rw [Memory.writeBytes, ih _ (by omega), Memory.read_write_other m (by omega)]

/-- Loading a word leaves every byte of the store outside its four alone. -/
theorem State.imemByte_loadWord_other (s : State) (word : Word) {a : Nat}
    (ha : a < s.pc.toNat ∨ s.pc.toNat + 4 ≤ a) : (s.loadWord word).imemByte a = s.imemByte a := by
  rw [State.imemByte, State.loadWord_params_imem]
  exact Memory.read_writeBytes_other s.params.imem ha

/-- A Running core at an aligned `pc` runs the word just loaded there (R163). -/
theorem step_loadWord {s : State} (hrun : s.halted = false) (haligned : s.pc.toNat % 4 = 0)
    (hwf : Memory.wf s.params.imem = true) (word : Word) : step (s.loadWord word) = runWord word (s.loadWord word) := by
  have hword : (s.loadWord word).ifetch (s.loadWord word).pc = word := s.ifetch_loadWord hwf word
  rw [step_of_running (s := s.loadWord word) hrun (decide_eq_true haligned) (s.fetchInRange_loadWord word), hword]

/-- A table row of 32 bits is the word itself. -/
theorem tableWord_32 {n : Nat} (h : n < 2 ^ 32) : tableWord 32 n = BitVec.ofNat 32 n := by
  rw [tableWord, Nat.mod_eq_of_lt h]

end Sys2Proof.Machine

namespace Sys2Proof

/-- Settles O49: canonical memories are determined by their reads, and any content is written cell by cell. -/
theorem canonicalMemoriesAreDetermined : Obligations.CanonicalMemoriesAreDetermined := by
  refine ⟨fun _ _ _ => Machine.Memory.ext_of_wf, fun _ _ a v h => Machine.Memory.write_write_read h a v, ?_⟩
  intro w bound content
  have hwithin := Machine.Memory.ofContent_within content bound
  exact ⟨Machine.Memory.ofContent content bound, Machine.Memory.ofContent_wf content bound, hwithin,
    fun _ ha => Machine.Memory.read_ofContent content ha, fun _ ha => Machine.Memory.read_outside hwithin ha⟩

/-- Settles O47: the store sets the word, the instruction in between keeps it and the capacity, and the load reads it. -/
theorem loadReturnsTheLatestStore : Obligations.LoadReturnsTheLatestStore := by
  intro s t u rt rs rd base imm imm' i hwf hin hsw hi hother haddr
  rw [Machine.exec_of_effect (Machine.dispatchOf_sw_inBounds rs rt imm hin)] at hsw
  cases hsw
  have hparams : u.params = s.params := (Machine.exec_params hi).trans (s.apply_params _)
  have hkept := Machine.exec_read_mem (b := (Machine.basePlusImm (s.readReg rs) imm).toNat) hi
    fun a ha hab => hother (by rw [ha, BitVec.eq_of_toNat_eq hab])
  have hinU : u.memInBounds (Machine.basePlusImm (u.readReg base) imm') = true := by
    rw [haddr, Machine.State.memInBounds_iff, hparams, ← Machine.State.memInBounds_iff]
    exact hin
  refine ⟨_, Machine.exec_of_effect (Machine.dispatchOf_lw_inBounds base rd imm' hinU), ?_⟩
  calc
    _ = u.memRead (Machine.basePlusImm (u.readReg base) imm') := Machine.State.readReg_writeReg_same u rd _
    _ = Machine.Memory.read u.mem (Machine.basePlusImm (s.readReg rs) imm).toNat := by
      rw [haddr, Machine.State.memRead]
    _ = s.readReg rt := hkept.trans (Machine.Memory.read_write_same hwf _ _)

/-- Settles O55: the loaded word is in range and read back, and the load writes only its four bytes. -/
theorem loadedWordRunsNext : Obligations.LoadedWordRunsNext := by
  intro s w hrun haligned hwf hw
  rw [← Machine.tableWord_32 hw]
  exact ⟨Machine.step_loadWord hrun haligned hwf _, rfl, rfl, rfl, rfl, rfl, rfl,
    fun _ ha => s.imemByte_loadWord_other _ ha⟩

end Sys2Proof
end

section
/-! A step as its activity carried out (R70, R145), trap entry and its report (R146, R147), HALT as the stop without a
record (R152), the branch to itself (R79), and the trap record that no step reads. -/

namespace Sys2Proof.Machine

/-! ### The activity of a step -/

/-- Running a word is its activity carried out. -/
theorem runWord_eq_perform (w : Word) (s : State) : runWord w s = (wordActivity w s).perform s := by
  rw [runWord, wordActivity]
  cases decodeWord w with
  | error c => rfl
  | ok i =>
    dsimp only
    rw [exec_eq_dispatchOf]
    cases dispatchOf i s with
    | none => rfl
    | some d => cases d <;> rfl

/-- A step is its activity carried out: the checks come in the same order in both (R70, R145). -/
theorem step_eq_perform (s : State) : step s = (activity s).perform s := by
  rw [step_eq, loopStep, activity]
  split
  · rfl
  split
  · rfl
  split
  · rfl
  · exact runWord_eq_perform _ s

/-- A step stops at HALT exactly when the core is Fetching and the word at `pc` is a HALT (R111). -/
theorem activity_eq_stops_iff (s : State) :
    activity s = .stops ↔ s.Fetching ∧ ∃ b, decodeWord (s.ifetch s.pc) = .ok (.halt b) := by
  constructor
  · intro h
    rw [activity] at h
    split at h
    · cases h
    split at h
    · cases h
    split at h
    · cases h
    case isFalse hhalted haligned hrange =>
    have hs : s.Fetching := by
      simpa [State.pcAligned, State.fetchInRange] using And.intro hhalted (And.intro haligned hrange)
    refine ⟨hs, ?_⟩
    rw [wordActivity] at h
    split at h
    · cases h
    case h_2 i hi =>
    split at h
    case h_1 hnone =>
      have hop := op_halt_of_dispatchOf_none hnone
      cases i with
      | halt b => exact ⟨b, hi⟩
      | addu | subu | and | or | nor | addiu | beq | lw | sw | j => cases hop
    · cases h
    · cases h
  · rintro ⟨hs, b, hb⟩
    rw [activity_of_fetching hs, wordActivity, hb]
    rfl

/-- A step request reports a trap exactly when its activity is one, of the kind of its cause, at `pc` (R147). -/
theorem stepReport_eq_some_iff (s : State) (k : TrapKind) (p : Word) :
    stepReport s = some (k, p) ↔ ∃ c, activity s = .traps c ∧ k = c.kind ∧ p = s.pc := by
  constructor
  · intro h
    cases ha : activity s with
    | traps c => rw [stepReport_of_traps ha] at h; cases h; exact ⟨c, rfl, rfl, rfl⟩
    | idle | stops | acts | refuses => simp [stepReport, ha, Activity.trap] at h
  · rintro ⟨c, ha, rfl, rfl⟩
    exact stepReport_of_traps ha

/-- A step whose activity is a trap takes it (R146). -/
theorem step_of_traps {s : State} {c : TrapCause} (h : activity s = .traps c) : step s = .next (s.takeTrap c) := by
  rw [step_eq_perform, h]
  rfl

/-- The state after a trap shows its kind and `pc` (R134, R147). -/
theorem State.takeTrap_latchedReport (s : State) (c : TrapCause) :
    (s.takeTrap c).latchedReport = some (c.kind, s.pc) := rfl

/-- A Running core that steps to a Halted state ran HALT or took a trap (R152). -/
theorem activity_of_stop {s t : State} (hrun : s.halted = false) (h : step s = .next t) (ht : t.halted = true) :
    (activity s = .stops ∧ t = s.halt) ∨ ∃ c, activity s = .traps c ∧ t = s.takeTrap c := by
  rw [step_eq_perform] at h
  cases ha : activity s with
  | stops => rw [ha] at h; cases h; exact .inl ⟨rfl, rfl⟩
  | traps c => rw [ha] at h; cases h; exact .inr ⟨c, rfl, rfl⟩
  | idle => rw [ha] at h; cases h; rw [hrun] at ht; cases ht
  | acts e => rw [ha] at h; cases h; rw [s.apply_halted, hrun] at ht; cases ht
  | refuses r => rw [ha] at h; cases h

/-! ### The branch to itself -/

/-- A displacement of -1 takes a branch back to where it is (R123). -/
theorem branchTarget_minus_one (pc : Word) : branchTarget pc (sext16 0xFFFF#16) = pc := by
  have hback : 4#32 + (sext16 0xFFFF#16 <<< 2) = 0#32 := by decide
  rw [branchTarget, nextPc, BitVec.add_assoc, hback, BitVec.add_zero]

/-- `beq r, r, -1` answers the state it started from. -/
theorem exec_selfBranch (r : Fin 32) (s : State) : exec (.beq r.val r.val 0xFFFF#16) s = .next s := by
  rw [exec_beq, if_pos rfl, branchTarget_minus_one]

/-! ### The trap record is never read -/

/-- The state with another trap record. -/
def State.withRecord (s : State) (k : Option TrapKind) : State :=
  State.mk s.pc s.halted k s.regs s.mem s.params

/-- The dispatch does not read the record. -/
theorem dispatchOf_withRecord (i : Instr) (s : State) (k : Option TrapKind) :
    dispatchOf i (s.withRecord k) = dispatchOf i s := by
  cases i <;> rfl

/-- The activity does not read the record. -/
theorem activity_withRecord (s : State) (k : Option TrapKind) : activity (s.withRecord k) = activity s := by
  have hword (w : Word) : wordActivity w (s.withRecord k) = wordActivity w s := by
    simp only [wordActivity, dispatchOf_withRecord]
  simp only [activity, hword]
  rfl

/-- Applying an Effect does not read the record. -/
theorem State.apply_withRecord (s : State) (k : Option TrapKind) (e : Effect) :
    (s.withRecord k).apply e = (s.apply e).withRecord k := by
  cases e <;> rfl

/-- A step does not read the record: from another one it leads to the same state up to the record. -/
theorem step_withRecord {s t : State} (h : step s = .next t) (k : Option TrapKind) :
    ∃ k', step (s.withRecord k) = .next (t.withRecord k') := by
  rw [step_eq_perform] at h ⊢
  rw [activity_withRecord]
  cases ha : activity s with
  | idle => rw [ha] at h; cases h; exact ⟨k, rfl⟩
  | stops => rw [ha] at h; cases h; exact ⟨k, rfl⟩
  | acts e => rw [ha] at h; cases h; exact ⟨k, congrArg _ (s.apply_withRecord k e)⟩
  | traps c => rw [ha] at h; cases h; exact ⟨some c.kind, rfl⟩
  | refuses r => rw [ha] at h; cases h

/-- A refusal does not depend on the record. -/
theorem step_withRecord_refused {s : State} {r : Refusal} (h : step s = .refused r) (k : Option TrapKind) :
    step (s.withRecord k) = .refused r :=
  (step_refused_iff (s.withRecord k) r).mpr ((step_refused_iff s r).mp h)

/-- A run from another record leads to the same state up to the record. -/
theorem runFor_withRecord {n : Nat} {s t : State} (h : runFor n s = .next t) (k : Option TrapKind) :
    ∃ k', runFor n (s.withRecord k) = .next (t.withRecord k') := by
  induction n generalizing s k with
  | zero => cases h; exact ⟨k, rfl⟩
  | succ n ih =>
    obtain ⟨u, hu, ht⟩ := runFor_succ_next h
    obtain ⟨k', hk'⟩ := step_withRecord hu k
    rw [runFor_succ_of_next hk']
    exact ih ht k'

/-- A run that is refused is refused from another record too. -/
theorem runFor_withRecord_refused {n : Nat} {s : State} {r : Refusal} (h : runFor n s = .refused r)
    (k : Option TrapKind) : runFor n (s.withRecord k) = .refused r := by
  induction n generalizing s k with
  | zero => cases h
  | succ n ih =>
    cases hs : step s with
    | next t =>
      obtain ⟨k', hk'⟩ := step_withRecord hs k
      rw [runFor_succ_of_next hk']
      rw [runFor_succ_of_next hs] at h
      exact ih h k'
    | refused r' =>
      rw [runFor_succ_of_refused (step_withRecord_refused hs k)]
      rw [runFor_succ_of_refused hs] at h
      exact h
    | fault f => cases f

end Sys2Proof.Machine

namespace Sys2Proof

/-- Settles O28: the four bytes are those that the fetch assembles. -/
theorem stepRunsTheDecodedInstruction : Obligations.StepRunsTheDecodedInstruction := by
  intro s i hs hbytes _
  refine Machine.step_of_decoded hs ?_
  rw [decode] at hbytes
  rw [Machine.State.ifetch]
  split at hbytes
  case h_1 j hj => cases hbytes; exact hj
  case h_2 => cases hbytes

/-- Settles O29: the checks in their order, then the fetched word's activity. -/
theorem stepIsThePipeline : Obligations.StepIsThePipeline :=
  Machine.step_eq_perform

/-- Settles O33: the activity that is a trap is carried out by trap entry, which latches what the step reports. -/
theorem trapEntryLatchesTheKind : Obligations.TrapEntryLatchesTheKind := by
  refine ⟨fun s c h => ⟨Machine.step_of_traps h, Machine.stepReport_of_traps h, fun t ht => ?_⟩,
    rfl, rfl, rfl, rfl, rfl, rfl, rfl, rfl⟩
  rw [Machine.step_of_traps h] at ht
  cases ht
  rw [s.takeTrap_latchedReport, Machine.stepReport_of_traps h]

/-- Settles O52: the core stopped by HALT, which leaves the record and reports nothing, or by a trap, which sets the one and
does the other. -/
theorem haltIsNotATrap : Obligations.HaltIsNotATrap := by
  intro s t hrun hnone h ht
  rcases Machine.activity_of_stop hrun h ht with ⟨ha, rfl⟩ | ⟨c, ha, rfl⟩
  · obtain ⟨⟨-, -, hrange⟩, hb⟩ := (Machine.activity_eq_stops_iff s).mp ha
    have hreport : Machine.stepReport s = none := by simp [Machine.stepReport, ha, Machine.Activity.trap]
    rw [s.halt_trapKind]
    exact ⟨iff_of_true hnone ⟨hrange, hb⟩, iff_of_true hnone hreport⟩
  · have hrecord : (s.takeTrap c).trapKind ≠ none := by simp
    refine ⟨iff_of_false hrecord ?_, iff_of_false hrecord (by simp [Machine.stepReport_of_traps ha])⟩
    rintro ⟨hrange, hb⟩
    have haligned := of_decide_eq_true (Machine.pcAligned_of_step h hrun)
    rw [(Machine.activity_eq_stops_iff s).mpr ⟨⟨hrun, haligned, hrange⟩, hb⟩] at ha
    cases ha

/-- Settles O56: the branch is taken, back to its own `pc`, so the state steps to itself. -/
theorem selfBranchNeverHalts : Obligations.SelfBranchNeverHalts := by
  intro s r hs hd
  obtain ⟨rfl, -⟩ := eq_fields_of_regIndices_pair hd rfl
  have hstep : Machine.step s = .next s :=
    (Machine.step_of_decoded hs hd).trans (Machine.exec_selfBranch (rsField (s.ifetch s.pc)).toFin s)
  exact Machine.runFor_of_step_self hstep

/-- Settles O50, by induction on the number of steps: a state and the one with another record step alike. -/
theorem trapRecordIsNeverRead : Obligations.TrapRecordIsNeverRead := by
  refine fun n s k => ⟨fun t h => ?_, fun r h => Machine.runFor_withRecord_refused h k⟩
  obtain ⟨k', hk'⟩ := Machine.runFor_withRecord h k
  exact ⟨_, hk', rfl, rfl, rfl, rfl, rfl⟩

end Sys2Proof
end

section
/-! The clock edge and the ports (R131 to R134, R160): the edge carries out its activity, the enables show what it writes,
and the address ports follow the fetched word. -/

namespace Sys2Proof.Machine

/-! ### The clock edge -/

/-- A Halted core has no activity at a clock edge, whatever the inputs (R78). -/
theorem edgeActivity_of_halted {s : State} (h : s.halted = true) (rst stepEn : Bool) :
    edgeActivity rst stepEn s = .idle := by
  rw [edgeActivity, activity_of_halted h, ite_self]

/-- With `rst` low, a clock edge carries out its activity (R132). -/
theorem clockEdge_eq_perform (stepEn : Bool) (s : State) :
    clockEdge false stepEn s = (edgeActivity false stepEn s).perform s := by
  cases stepEn with
  | true => exact step_eq_perform s
  | false => rfl

/-- An activity at a clock edge is that of a requested step with `rst` low, or none. -/
theorem edgeActivity_cases (rst stepEn : Bool) (s : State) :
    edgeActivity rst stepEn s = .idle ∨ rst = false ∧ stepEn = true ∧ edgeActivity rst stepEn s = activity s := by
  cases rst with
  | true => exact .inl rfl
  | false =>
    cases stepEn with
    | true => exact .inr ⟨rfl, rfl, rfl⟩
    | false => exact .inl rfl

/-- A clock edge applies the Effect that is its activity, or else writes no register and no word, and its write ports
show none (R131, R160). -/
theorem clockEdge_cases {rst stepEn : Bool} {s t : State} (h : clockEdge rst stepEn s = .next t) :
    (∃ e, edgeActivity rst stepEn s = .acts e ∧ activity s = .acts e ∧ t = s.apply e) ∨
    ((edgeActivity rst stepEn s).rfWdata = none ∧ (edgeActivity rst stepEn s).writesMemory = false ∧
      t.regs = s.regs ∧ t.mem = s.mem) := by
  cases rst with
  | true => cases h; exact .inr ⟨rfl, rfl, rfl, rfl⟩
  | false =>
    rw [clockEdge_eq_perform] at h
    cases ha : edgeActivity false stepEn s with
    | acts e =>
      rw [ha] at h
      cases h
      rcases edgeActivity_cases false stepEn s with hidle | ⟨-, -, hact⟩
      · rw [ha] at hidle; cases hidle
      · exact .inl ⟨e, rfl, hact.symm.trans ha, rfl⟩
    | idle => rw [ha] at h; cases h; exact .inr ⟨rfl, rfl, rfl, rfl⟩
    | stops => rw [ha] at h; cases h; exact .inr ⟨rfl, rfl, rfl, rfl⟩
    | traps c => rw [ha] at h; cases h; exact .inr ⟨rfl, rfl, rfl, rfl⟩
    | refuses r => rw [ha] at h; cases h

/-! ### The address ports -/

/-- A word that is neither a jump nor HALT is of R- or I-shape, so its read indices are its `rs` and `rt` fields (R131). -/
theorem readIndices_of_opcode {w : Word} (h : opcodeField w ∉ [0x02#6, 0x3F#6]) :
    readIndices w = some (rsField w, rtField w) := by
  simp only [List.mem_cons, List.not_mem_nil, or_false, not_or] at h
  obtain ⟨hJ, hHalt⟩ := h
  by_cases hR : opcodeField w = 0x00#6
  · exact (portIndices_rShape hR).1
  · exact (portIndices_iShape hR hJ hHalt).1

/-- A word that decodes to an instruction with register operands is of R- or I-shape. -/
theorem opcode_of_regIndices {w : Word} {i : Instr} (h : decodeWord w = .ok i) (hi : i.regIndices ≠ []) :
    opcodeField w ∉ [0x02#6, 0x3F#6] := by
  simp only [List.mem_cons, List.not_mem_nil, or_false]
  rintro (hJ | hHalt)
  · rw [decodeWord_jShape hJ] at h; cases h; exact hi rfl
  · rw [decodeWord_haltShape hHalt] at h; cases h; exact hi rfl

/-- A load or a store puts `x[rs] + sext_16(imm)` on the data address port, in bounds or not (R131). -/
theorem dataAddress_of_opcode {w : Word} (h : opcodeField w = 0x23#6 ∨ opcodeField w = 0x2B#6) (s : State) :
    dataAddress w s = some (basePlusImm (s.readReg (rsField w).toFin) (immField w)) := by
  have hindex : regIndex (rsField w).toNat = some (rsField w).toFin := regIndex_val (rsField w).toFin
  rcases h with hop | hop
  · have hlw : decodeWord w = .ok (.lw (rtField w).toNat (rsField w).toNat (immField w)) := by
      rw [decodeWord_iShape (by simp [hop]) (by simp [hop]) (by simp [hop]), hop]
      rfl
    rw [dataAddress, hlw]
    simp [storeAddress, loadAddress, hindex]
  · have hsw : decodeWord w = .ok (.sw (rtField w).toNat (rsField w).toNat (immField w)) := by
      rw [decodeWord_iShape (by simp [hop]) (by simp [hop]) (by simp [hop]), hop]
      rfl
    rw [dataAddress, hsw]
    simp [storeAddress, hindex]

/-- A memory write that a word dispatches shows its word index and its value, `x[rt]`, on the data ports (R131). -/
theorem dataPorts_of_memoryWrite {w : Word} {i : Instr} {s : State} {a v : Word} (hi : decodeWord w = .ok i)
    (hd : dispatchOf i s = some (.effect (.memoryWrite a v))) :
    dataAddress w s = some a ∧ (readIndices w).map (fun r => s.rfRdata r.2) = some v := by
  obtain ⟨hstore, -⟩ := dispatchOf_memoryWrite hd
  refine ⟨by rw [dataAddress, hi]; simp [hstore], ?_⟩
  cases i with
  | sw rt rs imm =>
    obtain ⟨_, j, -, hj, hk⟩ := dispatchI_effect (Option.some.inj hd)
    obtain ⟨-, hrt⟩ := eq_fields_of_regIndices_pair hi rfl
    have hfield : (rtField w).toFin = j := Fin.ext (hrt.symm.trans hj.symm)
    rw [readIndices_of_opcode (opcode_of_regIndices hi (by simp [Instr.regIndices]))]
    split at hk
    · cases hk; rw [← hfield]; rfl
    · cases hk
  | addu | subu | and | or | nor | addiu | beq | lw | j | halt => cases hstore

/-- A cycle whose `pc` is aligned and inside the store fetches the word there (R72). -/
theorem State.fetchedWord_eq {s : State} (haligned : s.pc.toNat % 4 = 0) (hrange : s.pc.toNat < s.imemBytes) :
    s.fetchedWord = some (s.ifetch s.pc) := by
  simp [State.fetchedWord, State.pcAligned, State.fetchInRange, haligned, hrange]

/-! ### The write ports -/

section
variable {rst stepEn : Bool} {s : State}

/-- A register write at the clock edge shows its index and its value on the register write ports (R131). -/
theorem ports_of_registerWrite {i : Fin 32} {v : Word} (h : edgeActivity rst stepEn s = .acts (.registerWrite i v))
    (ha : activity s = .acts (.registerWrite i v)) :
    (ports rst stepEn s).rfWaddr = some (BitVec.ofFin i) ∧ (ports rst stepEn s).rfWdata = some v := by
  obtain ⟨hfetched, hword⟩ := activity_acts ha
  obtain ⟨j, hj, hd⟩ := wordActivity_acts hword
  refine ⟨?_, by rw [ports, h]; rfl⟩
  rw [ports, hfetched]
  exact writeIndex_of_decodeWord hj (dispatchOf_registerWrite hd)

/-- A memory write at the clock edge shows its word index, in bounds, and its value on the data ports (R131). -/
theorem ports_of_memoryWrite {a v : Word} (ha : activity s = .acts (.memoryWrite a v)) :
    (ports rst stepEn s).dmemAddr = some a ∧ (ports rst stepEn s).dmemWdata = some v ∧ s.memInBounds a = true := by
  obtain ⟨hfetched, hword⟩ := activity_acts ha
  obtain ⟨j, hj, hd⟩ := wordActivity_acts hword
  obtain ⟨haddr, hdata⟩ := dataPorts_of_memoryWrite hj hd
  rw [ports, hfetched]
  exact ⟨haddr, hdata, dispatchOf_memoryWrite_inBounds hd⟩

/-- The register write enable is up exactly when the activity has a value to write. -/
theorem ports_rfWe : (ports rst stepEn s).rfWe = (edgeActivity rst stepEn s).rfWdata.isSome := rfl

/-- The data write enable is up exactly when the activity writes memory. -/
theorem ports_dmemWe : (ports rst stepEn s).dmemWe = (edgeActivity rst stepEn s).writesMemory := rfl

/-- The trap pulse is up exactly when the activity is a trap. -/
theorem ports_trapValid : (ports rst stepEn s).trapValid = (edgeActivity rst stepEn s).trap.isSome := rfl

/-- The trap kind port shows the kind being raised, or else the record (R134). -/
theorem ports_trapKind :
    (ports rst stepEn s).trapKind = trapCode ((edgeActivity rst stepEn s).trap.or s.trapKind) := rfl

end

/-- A Halted core has every enable low (decision D19). -/
theorem ports_of_halted {s : State} (h : s.halted = true) (rst stepEn : Bool) :
    (ports rst stepEn s).rfWe = false ∧ (ports rst stepEn s).dmemWe = false ∧
    (ports rst stepEn s).trapValid = false ∧ (ports rst stepEn s).halted = true := by
  rw [ports_rfWe, ports_dmemWe, ports_trapValid, edgeActivity_of_halted h]
  exact ⟨rfl, rfl, rfl, h⟩

/-- The trap pulse comes exactly with a requested step that reports a trap (R134). -/
theorem ports_trapValid_iff (stepEn : Bool) (s : State) :
    (ports false stepEn s).trapValid = true ↔ stepEn = true ∧ (stepReport s).isSome = true := by
  rw [ports_trapValid]
  cases stepEn with
  | true => simp [edgeActivity, stepReport]
  | false => simp [edgeActivity, Activity.trap]

end Sys2Proof.Machine

namespace Sys2Proof

/-- Settles O41: `rst` decides the edge by definition, and the reset event sets three fields. -/
theorem resetEventKeepsTheArrays : Obligations.ResetEventKeepsTheArrays :=
  fun _ _ => rfl

/-- Settles O42: the edge by definition, and a Halted core by its idle activity. -/
theorem clockEdgePerformsOneStep : Obligations.ClockEdgePerformsOneStep := by
  refine fun s => ⟨rfl, rfl, fun h stepEn => ⟨?_, Machine.ports_of_halted h false stepEn⟩⟩
  rw [Machine.clockEdge_eq_perform, Machine.edgeActivity_of_halted h]
  rfl

/-- Settles O43: by the Effect that the edge applies, if it applies one. -/
theorem writePortsShowTheWrites : Obligations.WritePortsShowTheWrites := by
  intro rst stepEn s t h
  rw [Machine.ports_rfWe, Machine.ports_dmemWe]
  rcases Machine.clockEdge_cases h with ⟨e, hedge, hact, rfl⟩ | ⟨hreg, hmem, hregs, hmems⟩
  · rw [hedge]
    cases e with
    | registerWrite i v =>
      obtain ⟨hwaddr, hwdata⟩ := Machine.ports_of_registerWrite hedge hact
      refine ⟨fun _ => ⟨_, v, hwaddr, hwdata, rfl, rfl⟩, ?_, ?_, fun _ => rfl, ?_, rfl, rfl⟩ <;>
        simp [Machine.Activity.rfWdata, Machine.Activity.writesMemory]
    | memoryWrite a v =>
      obtain ⟨haddr, hwdata, hin⟩ := Machine.ports_of_memoryWrite (rst := rst) (stepEn := stepEn) hact
      refine ⟨?_, fun _ => rfl, fun _ => ⟨a, v, haddr, hwdata, hin, rfl, rfl⟩, ?_, ?_, rfl, rfl⟩ <;>
        simp [Machine.Activity.rfWdata, Machine.Activity.writesMemory]
    | pcAdjust _ | noOp =>
      refine ⟨?_, fun _ => rfl, ?_, fun _ => rfl, ?_, rfl, rfl⟩ <;>
        simp [Machine.Activity.rfWdata, Machine.Activity.writesMemory]
  · rw [hreg, hmem]
    refine ⟨?_, fun _ => hregs, ?_, fun _ => hmems, ?_, rfl, rfl⟩ <;> simp

/-- Settles O44: the reported trap is the step's activity, and the state it leads to is Halted with the kind latched. -/
theorem trapPulsesOnceThenLatches : Obligations.TrapPulsesOnceThenLatches := by
  refine fun s => ⟨fun stepEn => Machine.ports_trapValid_iff stepEn s, fun k p h => ?_⟩
  obtain ⟨c, hact, rfl, rfl⟩ := (Machine.stepReport_eq_some_iff s k p).mp h
  have hedge : Machine.edgeActivity false true s = .traps c := hact
  refine ⟨rfl, by rw [Machine.ports_trapKind, hedge]; rfl, rfl, _, Machine.step_of_traps hact, fun stepEn => ?_⟩
  obtain ⟨-, -, hvalid, hhalted⟩ := Machine.ports_of_halted (s.takeTrap_halted c) false stepEn
  refine ⟨hvalid, hhalted, ?_, rfl⟩
  rw [Machine.ports_trapKind, Machine.edgeActivity_of_halted (s.takeTrap_halted c)]
  rfl

/-- Settles O57: each port is a function of the fetched word, which the opcode decides. -/
theorem addressPortsFollowTheFetchedWord : Obligations.AddressPortsFollowTheFetchedWord := by
  intro rst stepEn s haligned hrange
  simp only [Machine.ports, Machine.State.fetchedWord_eq haligned hrange, Option.bind_some]
  refine ⟨fun hR => (Machine.portIndices_rShape hR).2, fun hop => ?_, fun hop => ?_, fun hop => ?_⟩
  · have hother : ∀ o ∈ [0x00#6, 0x02#6, 0x3F#6], opcodeField (s.ifetch s.pc) ≠ o := by
      rcases hop with hop | hop <;> rw [hop] <;> decide
    rw [(Machine.portIndices_iShape (hother _ (by simp)) (hother _ (by simp)) (hother _ (by simp))).2, if_pos hop]
  · rw [Machine.readIndices_of_opcode hop]
    exact ⟨rfl, rfl⟩
  · exact Machine.dataAddress_of_opcode hop s

end Sys2Proof
end
